-- ==== Sys2Proof/Word.lean ====
section
/-!
DEFINITION. The words the spec moves whole (20_memory.md R49, R50) and a host command (30_encoding.md R59).
-/

namespace Sys2Proof

/-- A 32-bit command or response word (30_encoding.md R59, R62). -/
abbrev Word := BitVec 32

/-- A binary64 bit pattern, sign at bit 63 (00_scope.md R16, 20_memory.md R49). -/
abbrev F64 := BitVec 64

/-- A pin identifier, 8 bits (00_scope.md R12). -/
abbrev PinId := BitVec 8

/-- A chip identifier, 8 bits (00_scope.md R12). -/
abbrev ChipId := BitVec 8

/-- The 24-bit string a READ captures (00_scope.md R10). -/
abbrev Raw := BitVec 24

/-- The level of a wire: `false` is 0, `true` is 1 (20_memory.md R39). -/
abbrev Level := Bool

/-- A host command: the command word and its 64-bit argument, presented at once (30_encoding.md R59). -/
structure Command where
  cmd : Word
  arg : F64
deriving DecidableEq, Repr

end Sys2Proof
end

