-- ==== Sys2Proof/Config.lean ====
section
/-!
DEFINITION. What an implementation fixes and the spec leaves open (00_scope.md R11, R13), and the free values behind
the spec's draws (00_scope.md R19). Every `opaque` below has no body: nothing can be proved of its value.
-/

namespace Sys2Proof

/-- What `PortOpen` answers (20_memory.md R40). -/
inductive OpenResult where
  | ok
  | openFail
deriving DecidableEq, Repr, Inhabited

/-- What `PortClaimIn` and `PortClaimOut` answer (20_memory.md R41). -/
inductive ClaimResult where
  | ok
  | claimFail
deriving DecidableEq, Repr, Inhabited

namespace Config

/-- The n-th open answer that no supplied input gives (20_memory.md R40; log 5). -/
opaque freeOpen : Nat → OpenResult

/-- The n-th claim answer that no supplied input gives (20_memory.md R41; log 5). -/
opaque freeClaim : Nat → ClaimResult

/-- The n-th data-line level that no supplied input gives (20_memory.md R43; log 5). -/
opaque freeLevel : Nat → Level

/-- For the n-th READ that no supplied input covers: after how many WAIT draws its ready wait draws ELAPSED
(40_serial_reader.md R79; log 6). -/
opaque freeDeadline : Nat → Nat

/-- The pattern from which the n-th NaN result is made (NAN_RESULT, 42_calibration.md R102; log 9). -/
opaque freeNan : Nat → F64

/-- PORT_CLAIM_LEVEL: the level a newly claimed output starts at (00_scope.md R13; log 8). -/
opaque portClaimLevel : Level

/-- T_SLEEP = 60 microseconds, in nanoseconds (00_scope.md R10; the unit is log 11). -/
def tSleep : Nat := 60000

/-- What lies under the open timing values of 00_scope.md R11, in nanoseconds (log 11). -/
opaque freePollDeadline : Nat
opaque freeHighMax : Nat
opaque freePdHold : Nat

/-- T_POLL_DEADLINE, greater than 0 (00_scope.md R11). -/
def tPollDeadline : Nat := freePollDeadline + 1

/-- T_HIGH_MAX, less than T_SLEEP (00_scope.md R11). -/
def tHighMax : Nat := freeHighMax % tSleep

/-- T_PD_HOLD, at least T_SLEEP and finite (00_scope.md R11). -/
def tPdHold : Nat := tSleep + freePdHold

/-- T_WAKE_SETTLE, advisory, enforced by nothing in the block (00_scope.md R11, 43_power.md R115). -/
opaque tWakeSettle : Nat

/-- T_TARE_SETTLE, advisory, enforced by nothing in the block (00_scope.md R11, 42_calibration.md R106). -/
opaque tTareSettle : Nat

end Config

end Sys2Proof
end

