-- ==== Sys2Proof/Machine/State.lean ====
section
/-!
DEFINITION. The state: the record S of 10_state.md R20, the GpioPort's handle and claims (R31), the port trace
(00_scope.md R17), the host command channel (30_encoding.md R59, R62), and the inputs behind the draws (00_scope.md R19).
-/

namespace Sys2Proof.Machine

/-- LIFE (10_state.md R20, R21). The code 3 is never held and has no value here (log 12). -/
inductive Life where
  | uninit
  | ready
  | closed
deriving DecidableEq, Repr

/-- PWR (10_state.md R20, R22). -/
inductive Pwr where
  | awake
  | asleep
deriving DecidableEq, Repr

/-- A byte or bit order (10_state.md R20, R23). -/
inductive Order where
  | msb
  | lsb
deriving DecidableEq, Repr

/-- GAIN (10_state.md R20, R23). The code 3 is never held and has no value here (log 12). -/
inductive Gain where
  | a128
  | b32
  | a64
deriving DecidableEq, Repr

/-- CLK: the level the block drives on the clock wire, or none (10_state.md R20, 20_memory.md R45). -/
inductive Wire where
  | undriven
  | driven (level : Level)
deriving DecidableEq, Repr

/-- How a pin is claimed (20_memory.md R41). -/
inductive Direction where
  | input
  | output
deriving DecidableEq, Repr

/-- A pin the handle has claimed (20_memory.md R41). -/
structure Claim where
  pin : PinId
  dir : Direction
deriving DecidableEq, Repr

/-- The GpioPort handle the block holds: its chip and its claims, oldest first (10_state.md R31, 20_memory.md R40). -/
structure Handle where
  chip : ChipId
  claims : List Claim
deriving DecidableEq, Repr

/-- How long a hold lasts, by the name of its parameter (43_power.md R111). -/
inductive HoldTime where
  /-- T_PD_HOLD, whose value is `Config.tPdHold`. -/
  | pdHold
deriving DecidableEq, Repr

/-- One event of the port trace (20_memory.md R39). -/
inductive PortEvent where
  | openPort (chip : ChipId) (result : OpenResult)
  | claimIn (pin : PinId) (result : ClaimResult)
  | claimOut (pin : PinId) (result : ClaimResult)
  | write (pin : PinId) (level : Level)
  | read (pin : PinId) (level : Level)
  | hold (pin : PinId) (time : HoldTime)
  | closePort
deriving DecidableEq, Repr

/-- A response: the response word and the result (30_encoding.md R62). -/
structure Response where
  resp : Word
  result : F64
deriving DecidableEq, Repr

/-- The record S, with exactly the fields of 10_state.md R20. -/
structure Regs where
  life : Life
  pwr : Pwr
  byteOrder : Order
  bitOrder : Order
  gain : Gain
  offset : F64
  refUnit : F64
  /-- DATA_PIN, `none` while it holds no value (10_state.md R20; log 7). -/
  dataPin : Option PinId
  /-- CLOCK_PIN, `none` while it holds no value (10_state.md R20; log 7). -/
  clockPin : Option PinId
  /-- CHIP_ID, `none` while it holds no value (10_state.md R20; log 7). -/
  chipId : Option ChipId
  portOpen : Bool
  clk : Wire
deriving DecidableEq, Repr

/-- The answers of one kind of draw: those already supplied, next first, and how many free ones were drawn after
the supplied ones ran out (log 5). -/
structure Supply (α : Type) where
  queue : List α
  taken : Nat
deriving DecidableEq, Repr

/-- The inputs behind the draws of 00_scope.md R19 (log 5). -/
structure Env where
  /-- What `PortOpen` draws (20_memory.md R40). -/
  opens : Supply OpenResult
  /-- What a claim that is not forced to fail draws (20_memory.md R41). -/
  claims : Supply ClaimResult
  /-- What `PinRead` draws (20_memory.md R43). -/
  levels : Supply Level
  /-- For each READ, how many WAIT draws come before ELAPSED (40_serial_reader.md R79; log 6). -/
  deadlines : Supply Nat
  /-- How many NaN patterns NAN_RESULT has given (42_calibration.md R102; log 9). -/
  nans : Nat
deriving DecidableEq, Repr

/-- The whole state between two commands. -/
structure State where
  /-- The record S (10_state.md R20). -/
  regs : Regs
  /-- The handle the GpioPort holds for the block, if any (10_state.md R31). -/
  port : Option Handle
  /-- The port trace, in the order issued (00_scope.md R17, 20_memory.md R54). -/
  trace : List PortEvent
  /-- The commands the host will present, next first (30_encoding.md R59; log 2). -/
  commands : List Command
  /-- The responses sent, oldest first (30_encoding.md R62; log 3). -/
  responses : List Response
  /-- The inputs (00_scope.md R19). -/
  env : Env
deriving DecidableEq, Repr

/-- Why the machine stops. -/
inductive Fault where
  /-- Raised by TARE and GET_WEIGHT at the first read of DATA_PIN when it holds no value ("a model fault", 10_state.md R20).
  Safe: no state that a run from reset reaches raises it. -/
  | dataPinNoValue
  /-- Raised by TARE, GET_WEIGHT, POWER_DOWN, POWER_UP and CLOSE at the first write of CLOCK_PIN when it holds no value
  ("a model fault", 10_state.md R20). Safe: no state that a run from reset reaches raises it. -/
  | clockPinNoValue
deriving DecidableEq, Repr

/-- Why an instruction has no meaning. -/
inductive Refusal where
  /-- Raised by an arm of `exec` whose instruction has no meaning yet (none is left). Safe: nothing can be proved of what
  such an instruction does. -/
  | notModelled (mnemonic : String)
deriving DecidableEq, Repr

/-- What a command leads to. -/
abbrev Result := Host.Outcome State Fault Refusal

/-- S after power-on (10_state.md R20, 70_reset_and_hazards.md R155). -/
def Regs.reset : Regs where
  life := .uninit
  pwr := .awake
  byteOrder := .msb
  bitOrder := .msb
  gain := .a128
  offset := 0x0000000000000000
  refUnit := 0x3FF0000000000000
  dataPin := none
  clockPin := none
  chipId := none
  portOpen := false
  clk := .undriven

/-- The inputs at power-on: nothing supplied, nothing drawn (DESIGN CHOICE, log 5). -/
def Env.reset : Env where
  opens := { queue := [], taken := 0 }
  claims := { queue := [], taken := 0 }
  levels := { queue := [], taken := 0 }
  deadlines := { queue := [], taken := 0 }
  nans := 0

/-- The machine after power-on, before any command (70_reset_and_hazards.md R154 to R157). -/
def State.reset : State where
  regs := Regs.reset
  port := none
  trace := []
  commands := []
  responses := []
  env := Env.reset

end Sys2Proof.Machine
end

