-- ==== Sys2Proof/Machine/Binary64.lean ====
section
/-!
DEFINITION. IEEE 754 binary64 on bit patterns: the mean of 42_calibration.md R100 and the subtraction and division of
R101, rounded to nearest with ties to even (00_scope.md R16). The meaning of "float64" is general knowledge
(PRESUMED, log 10). Finite magnitudes are counted in units of 2^-1074, the smallest subnormal, so that every finite
value is a whole number of units.
-/

namespace Sys2Proof.Machine

/-- How many units of 2^-1074 make 1. -/
@[irreducible] def unitsPerOne : Nat := 2 ^ 1074

/-- The sign bit (30_encoding.md R68). -/
def f64Sign (x : F64) : Bool := x.getLsbD 63

/-- The biased exponent, bits 62..52 (30_encoding.md R68). -/
def f64Exp (x : F64) : Nat := (x.extractLsb' 52 11).toNat

/-- The fraction, bits 51..0 (30_encoding.md R68). -/
def f64Frac (x : F64) : Nat := (x.extractLsb' 0 52).toNat

def f64IsNaN (x : F64) : Bool := f64Exp x == 2047 && f64Frac x != 0

def f64IsInf (x : F64) : Bool := f64Exp x == 2047 && f64Frac x == 0

def f64IsFinite (x : F64) : Bool := f64Exp x != 2047

/-- +0.0 or -0.0: what compares equal to 0 (42_calibration.md R104). -/
def f64IsZero (x : F64) : Bool := f64Exp x == 0 && f64Frac x == 0

/-- The magnitude of a finite value, in units of 2^-1074. -/
def f64Units (x : F64) : Nat :=
  if f64Exp x = 0 then f64Frac x else (2 ^ 52 + f64Frac x) * 2 ^ (f64Exp x - 1)

/-- The signed value of a finite pattern, in units of 2^-1074. -/
def f64Int (x : F64) : Int := if f64Sign x then -(f64Units x : Int) else (f64Units x : Int)

/-- The natural number nearest to num / den, ties to even. -/
def roundNearestEven (num den : Nat) : Nat :=
  let q := num / den
  let r := num % den
  if 2 * r < den then q else if den < 2 * r then q + 1 else q + q % 2

/-- How many low bits of a magnitude of num / den units lie below a 53-bit significand. -/
def droppedBits (num den : Nat) : Nat := Nat.log2 (num / den) - 52

/-- The pattern, without its sign, of num / den units rounded to nearest, ties to even. The exponent field and the
fraction run on in one number, so a carry out of the significand lands in the exponent; what overflows is infinity. -/
def roundMagnitude (num den : Nat) : Nat :=
  let k := droppedBits num den
  min (k * 2 ^ 52 + roundNearestEven num (den * 2 ^ k)) (2047 * 2 ^ 52)

/-- The pattern with a given sign and magnitude bits. -/
def f64Pack (neg : Bool) (magnitude : Nat) : F64 := BitVec.ofBool neg ++ BitVec.ofNat 63 magnitude

def f64Zero (neg : Bool) : F64 := f64Pack neg 0

def f64Inf (neg : Bool) : F64 := f64Pack neg (2047 * 2 ^ 52)

/-- rne64 of the magnitude num / den, with its sign (00_scope.md R16). -/
def rne64 (neg : Bool) (num den : Nat) : F64 := f64Pack neg (roundMagnitude (num * unitsPerOne) den)

/-- mean(sum, n) = rne64(sum / n); a zero sum gives +0.0 (42_calibration.md R100). -/
def meanOf (sum : Int) (n : Nat) : F64 := rne64 (decide (sum < 0)) sum.natAbs n

/-- fsub(a, b), `none` when the IEEE result is a NaN (00_scope.md R16, 42_calibration.md R101). -/
def fsub (a b : F64) : Option F64 :=
  if f64IsNaN a || f64IsNaN b then none
  else if f64IsInf a then
    if f64IsInf b && f64Sign a == f64Sign b then none else some (f64Inf (f64Sign a))
  else if f64IsInf b then some (f64Inf (!f64Sign b))
  else
    let d := f64Int a - f64Int b
    if d = 0 then some (f64Zero (f64IsZero a && f64IsZero b && f64Sign a && !f64Sign b))
    else some (f64Pack (decide (d < 0)) (roundMagnitude d.natAbs 1))

/-- fdiv(a, b), `none` when the IEEE result is a NaN (00_scope.md R16, 42_calibration.md R101). -/
def fdiv (a b : F64) : Option F64 :=
  let neg := f64Sign a ^^ f64Sign b
  if f64IsNaN a || f64IsNaN b then none
  else if f64IsInf a then
    if f64IsInf b then none else some (f64Inf neg)
  else if f64IsInf b then some (f64Zero neg)
  else if f64IsZero b then
    if f64IsZero a then none else some (f64Inf neg)
  else some (f64Pack neg (roundMagnitude (f64Units a * unitsPerOne) (f64Units b)))

/-- w = fdiv(fsub(m, OFFSET), REF_UNIT), `none` when it is a NaN (42_calibration.md R101). -/
def weightOf (m offset refUnit : F64) : Option F64 :=
  match fsub m offset with
  | some d => fdiv d refUnit
  | none => none

/-- A NaN made from any pattern, itself if it is one, so that every NaN can come out (42_calibration.md R102). -/
def nanFrom (x : F64) : F64 := if f64IsNaN x then x else 0x7FF8000000000000

end Sys2Proof.Machine
end

