-- ==== Sys2Proof/Machine/Flags.lean ====
section
/-!
DEFINITION. The STATUS codes (60_exceptions.md R130) and the response word (30_encoding.md R62). The block has no flags;
STATUS, reported in every response and held nowhere, is the nearest thing (10_state.md R27).
-/

namespace Sys2Proof.Machine

/-- The statuses. Codes 9 to 15 are never produced and have no value here (60_exceptions.md R130; log 12). -/
inductive Status where
  | ok
  | gpioOpenError
  | gpioClaimError
  | sensorTimeout
  | invalidFormat
  | invalidReferenceUnit
  | useAfterClose
  | invalidState
  | illegalCommand
deriving DecidableEq, Repr

/-- The status codes (60_exceptions.md R130). -/
def Status.code : Status → BitVec 4
  | .ok => 0
  | .gpioOpenError => 1
  | .gpioClaimError => 2
  | .sensorTimeout => 3
  | .invalidFormat => 4
  | .invalidReferenceUnit => 5
  | .useAfterClose => 6
  | .invalidState => 7
  | .illegalCommand => 8

/-- The lifecycle codes (30_encoding.md R73). -/
def Life.code : Life → BitVec 2
  | .uninit => 0
  | .ready => 1
  | .closed => 2

/-- The power codes (30_encoding.md R73). -/
def Pwr.code : Pwr → BitVec 1
  | .awake => 0
  | .asleep => 1

/-- The response word: STATUS in 3:0, LIFE in 5:4, PWR in 6, zero above (30_encoding.md R62). -/
def respWord (st : Status) (life : Life) (pwr : Pwr) : Word :=
  (0 : BitVec 25) ++ pwr.code ++ life.code ++ st.code

end Sys2Proof.Machine
end

