-- ==== Sys2Proof/Syntax.lean ====
section
/-!
DEFINITION. The commands: one constructor per row of spec/opcode_table.json (30_encoding.md R69). Each field has the
width its format gives it (R63 to R68), so that every value of every field is an encoding the spec has.
READ has no row and no opcode (40_serial_reader.md R77).
-/

namespace Sys2Proof

/-- A decoded command. -/
inductive Instr where
  /-- CONFIGURE, format C (30_encoding.md R64). -/
  | configure (chip : ChipId) (clk dat : PinId)
  /-- SET_READING_FORMAT, format F (R65): `bito` is CMD[3:2], `byteo` is CMD[1:0]; 2 and 3 are reserved (R71). -/
  | setReadingFormat (bito byteo : BitVec 2)
  /-- SET_REFERENCE_UNIT, format R (R68): `u` is ARG. -/
  | setReferenceUnit (u : F64)
  /-- TARE, format K (R67): the sample count is `nm1 + 1`. -/
  | tare (nm1 : BitVec 16)
  /-- GET_WEIGHT, format K (R67): the sample count is `nm1 + 1`. -/
  | getWeight (nm1 : BitVec 16)
  /-- POWER_DOWN, format N (R63). -/
  | powerDown
  /-- POWER_UP, format N (R63). -/
  | powerUp
  /-- CLOSE, format N (R63). -/
  | close
  /-- SET_GAIN_CHANNEL, format G (R66): 3 is reserved (R71). -/
  | setGainChannel (gc : BitVec 2)
deriving DecidableEq, Repr

end Sys2Proof
end

