-- ==== Sys2Proof/WellFormed.lean ====
section
/-!
DEFINITION. The assembler's commands and what an assembler rejects (30_encoding.md R74, R75). An `Instr` needs no check
of its own: its fields have the widths of the formats, and every value of a field is a legal encoding (R64, R68, R71).
The numbers of an assembler command are unbounded, so the checks stand here.
-/

namespace Sys2Proof

/-- The textual commands of 30_encoding.md R74, their operands as numbers. An ordering or gain member is its code
(R73), a reserved value its number (R75); the value of SET_REFERENCE_UNIT is its bit pattern. -/
inductive Asm where
  | configure (data clock chip : Nat)
  | setReadingFormat (byte bit : Nat)
  | setReferenceUnit (value : F64)
  | tare (n : Nat)
  | getWeight (n : Nat)
  | powerDown
  | powerUp
  | close
  | setGainChannel (gain : Nat)
deriving DecidableEq, Repr

/-- A pin or chip id lies in 0 to 255 (30_encoding.md R75). -/
def idInRange (v : Nat) : Bool := decide (v ≤ 255)

/-- A count lies in 1 to 65536 (30_encoding.md R67, R75). -/
def countInRange (n : Nat) : Bool := decide (1 ≤ n) && decide (n ≤ 65536)

/-- An ordering or gain code fits its 2-bit field (30_encoding.md R65, R66). -/
def codeInRange (v : Nat) : Bool := decide (v ≤ 3)

/-- The operands can be encoded (30_encoding.md R75). -/
def Asm.wellFormed : Asm → Bool
  | .configure data clock chip => idInRange data && idInRange clock && idInRange chip
  | .setReadingFormat byte bit => codeInRange byte && codeInRange bit
  | .setReferenceUnit _ => true
  | .tare n => countInRange n
  | .getWeight n => countInRange n
  | .powerDown => true
  | .powerUp => true
  | .close => true
  | .setGainChannel gain => codeInRange gain

end Sys2Proof
end

