-- ==== Sys2Proof/Decode.lean ====
section
/-!
DEFINITION. The opcode map (30_encoding.md R69), the decoder, total on every command (R70), the encoder written from the
same formats (R63 to R68), and the assembler of R74.
-/

namespace Sys2Proof

/-- The operations of the opcode map, in its order (30_encoding.md R69). -/
inductive Opcode where
  | configure
  | setReadingFormat
  | setReferenceUnit
  | tare
  | getWeight
  | powerDown
  | powerUp
  | close
  | setGainChannel
deriving DecidableEq, Repr

/-- The rows of the opcode map. -/
def Opcode.all : List Opcode :=
  [.configure, .setReadingFormat, .setReferenceUnit, .tare, .getWeight, .powerDown, .powerUp, .close,
   .setGainChannel]

/-- OPC = CMD[31:24] (30_encoding.md R59, R69). -/
def Opcode.code : Opcode → BitVec 8
  | .configure => 0x01
  | .setReadingFormat => 0x02
  | .setReferenceUnit => 0x03
  | .tare => 0x04
  | .getWeight => 0x05
  | .powerDown => 0x06
  | .powerUp => 0x07
  | .close => 0x08
  | .setGainChannel => 0x09

/-- The row's match column (30_encoding.md R69). -/
def Opcode.pattern : Opcode → Word
  | .configure => 0x01000000
  | .setReadingFormat => 0x02000000
  | .setReferenceUnit => 0x03000000
  | .tare => 0x04000000
  | .getWeight => 0x05000000
  | .powerDown => 0x06000000
  | .powerUp => 0x07000000
  | .close => 0x08000000
  | .setGainChannel => 0x09000000

/-- The row's mask column: the opcode and the must-be-zero bits (30_encoding.md R69). -/
def Opcode.mask : Opcode → Word
  | .configure => 0xFF000000
  | .setReadingFormat => 0xFFFFFFF0
  | .setReferenceUnit => 0xFFFFFFFF
  | .tare => 0xFFFF0000
  | .getWeight => 0xFFFF0000
  | .powerDown => 0xFFFFFFFF
  | .powerUp => 0xFFFFFFFF
  | .close => 0xFFFFFFFF
  | .setGainChannel => 0xFFFFFFFC

/-- A command word selects a row when (CMD & mask) = match (30_encoding.md R69). -/
def Opcode.selects (op : Opcode) (w : Word) : Bool := w &&& op.mask == op.pattern

/-- The operands of a word that selects the row, as its format places them (30_encoding.md R63 to R68). -/
def Opcode.operands (op : Opcode) (c : Command) : Instr :=
  match op with
  | .configure => .configure (c.cmd.extractLsb' 16 8) (c.cmd.extractLsb' 8 8) (c.cmd.extractLsb' 0 8)
  | .setReadingFormat => .setReadingFormat (c.cmd.extractLsb' 2 2) (c.cmd.extractLsb' 0 2)
  | .setReferenceUnit => .setReferenceUnit c.arg
  | .tare => .tare (c.cmd.extractLsb' 0 16)
  | .getWeight => .getWeight (c.cmd.extractLsb' 0 16)
  | .powerDown => .powerDown
  | .powerUp => .powerUp
  | .close => .close
  | .setGainChannel => .setGainChannel (c.cmd.extractLsb' 0 2)

/-- The decoder: the row the word selects, or `none` for ILLEGAL (30_encoding.md R70). -/
def decode (c : Command) : Option Instr :=
  (Opcode.all.find? fun op => op.selects c.cmd).map fun op => op.operands c

/-- The row of a command. -/
def Instr.opcode : Instr → Opcode
  | .configure _ _ _ => .configure
  | .setReadingFormat _ _ => .setReadingFormat
  | .setReferenceUnit _ => .setReferenceUnit
  | .tare _ => .tare
  | .getWeight _ => .getWeight
  | .powerDown => .powerDown
  | .powerUp => .powerUp
  | .close => .close
  | .setGainChannel _ => .setGainChannel

/-- CMD[23:0] of a command, as its format lays it out (30_encoding.md R63 to R68). -/
def Instr.fields : Instr → BitVec 24
  | .configure chip clk dat => chip ++ clk ++ dat
  | .setReadingFormat bito byteo => (0 : BitVec 20) ++ bito ++ byteo
  | .setReferenceUnit _ => 0
  | .tare nm1 => (0 : BitVec 8) ++ nm1
  | .getWeight nm1 => (0 : BitVec 8) ++ nm1
  | .powerDown => 0
  | .powerUp => 0
  | .close => 0
  | .setGainChannel gc => (0 : BitVec 22) ++ gc

/-- ARG of a command: `u` for SET_REFERENCE_UNIT, else 0 (30_encoding.md R68, R75). -/
def Instr.argument : Instr → F64
  | .configure _ _ _ => 0
  | .setReadingFormat _ _ => 0
  | .setReferenceUnit u => u
  | .tare _ => 0
  | .getWeight _ => 0
  | .powerDown => 0
  | .powerUp => 0
  | .close => 0
  | .setGainChannel _ => 0

/-- The encoder: OPC in CMD[31:24], the format's fields below it (30_encoding.md R59, R63 to R68). -/
def encode (i : Instr) : Command :=
  { cmd := i.opcode.code ++ i.fields, arg := i.argument }

/-- The command word of a textual command, by the arithmetic of 30_encoding.md R74. -/
def Asm.word : Asm → Word
  | .configure data clock chip =>
      (0x01 : BitVec 8) ++ BitVec.ofNat 8 chip ++ BitVec.ofNat 8 clock ++ BitVec.ofNat 8 data
  | .setReadingFormat byte bit => 0x02000000 ||| BitVec.ofNat 32 (bit <<< 2) ||| BitVec.ofNat 32 byte
  | .setReferenceUnit _ => 0x03000000
  | .tare n => 0x04000000 ||| BitVec.ofNat 32 (n - 1)
  | .getWeight n => 0x05000000 ||| BitVec.ofNat 32 (n - 1)
  | .powerDown => 0x06000000
  | .powerUp => 0x07000000
  | .close => 0x08000000
  | .setGainChannel gain => 0x09000000 ||| BitVec.ofNat 32 gain

/-- ARG of a textual command: the value's bit pattern, or 0 where none is written (30_encoding.md R74, R75). -/
def Asm.arg : Asm → F64
  | .setReferenceUnit value => value
  | .configure _ _ _ => 0
  | .setReadingFormat _ _ => 0
  | .tare _ => 0
  | .getWeight _ => 0
  | .powerDown => 0
  | .powerUp => 0
  | .close => 0
  | .setGainChannel _ => 0

/-- The assembler: one (CMD, ARG) pair for a well-formed command, nothing for another (30_encoding.md R75, R76). -/
def assemble (a : Asm) : Option Command :=
  if a.wellFormed then some { cmd := a.word, arg := a.arg } else none

/-- A host command laid out as one number: CMD in bits 31..0, ARG in bits 95..32 (30_encoding.md R60; log 13). -/
def commandOfBits (nbits w : Nat) : Command :=
  let v := w % 2 ^ nbits
  { cmd := BitVec.ofNat 32 v, arg := BitVec.ofNat 64 (v / 2 ^ 32) }

/-- The instruction the decoder reads from an instruction whose bits are `w`. -/
def decodeTableWord (nbits w : Nat) : Option Instr := decode (commandOfBits nbits w)

end Sys2Proof
end

