-- ==== Sys2Proof/Machine/Operands.lean ====
section
/-!
DEFINITION. How the operands of the commands are read: the sample count, the enumeration members with their reserved
codes, the pulse counts, and the reading of a captured 24-bit string.
-/

namespace Sys2Proof.Machine

/-- The sample count n = zext_16(NM1) + 1, in 1 to 65536 (30_encoding.md R67). -/
def sampleCount (nm1 : BitVec 16) : Nat := nm1.toNat + 1

/-- The ordering a 2-bit field names, `none` for the reserved codes 2 and 3 (30_encoding.md R65, R71, R73). -/
def orderOfCode (v : BitVec 2) : Option Order :=
  if v = 0 then some .msb else if v = 1 then some .lsb else none

/-- The gain/channel mode a 2-bit field names, `none` for the reserved code 3 (30_encoding.md R66, R71, R73). -/
def gainOfCode (v : BitVec 2) : Option Gain :=
  if v = 0 then some .a128 else if v = 1 then some .b32 else if v = 2 then some .a64 else none

/-- The gain/channel codes (30_encoding.md R73). -/
def Gain.code : Gain → Nat
  | .a128 => 0
  | .b32 => 1
  | .a64 => 2

/-- P = 25 + code, the pulses of one READ (41_gain_selector.md R92). The B32 and A64 rows are inferred (R97; log 16). -/
def pulsesPerRead (g : Gain) : Nat := 25 + g.code

/-- reverse24: bit i of the result is bit 23 - i (00_scope.md R15). -/
def reverse24 (u : Raw) : Raw := BitVec.ofFnLE fun i : Fin 24 => u.getLsbD (23 - i.val)

/-- sext_24: subtract 2^24 when bit 23 is set (00_scope.md R15, 40_serial_reader.md R87). -/
def sext24 (u : Raw) : Int := if u.getLsbD 23 then (u.toNat : Int) - 2 ^ 24 else (u.toNat : Int)

/-- Steps 4 to 6 of READ: reorder by BIT_ORDER, sign-extend (40_serial_reader.md R85, R87). BYTE_ORDER has no part in it
(R86). -/
def decodeSample (bitOrder : Order) (acc : Raw) : Int :=
  sext24 (if bitOrder = .lsb then reverse24 acc else acc)

/-- acc[22:0] ++ b, one step of the capture (40_serial_reader.md R81). -/
def shiftIn (acc : Raw) (b : Level) : Raw := acc.extractLsb' 0 23 ++ BitVec.ofBool b

end Sys2Proof.Machine
end

