-- ==== Sys2Proof/Machine/Ops.lean ====
section
/-!
DEFINITION. The operations every command shares: the draws (00_scope.md R19), the seven port primitives
(20_memory.md R39), completion (00_scope.md R18), which is what stands in this block for taking an exception
(60_exceptions.md R143), DISPATCH (44_lifecycle.md R118), and taking a command from the host channel.
-/

namespace Sys2Proof.Machine

/-! ## Draws -/

/-- The next answer of a supply: the supplied one, or a free one (00_scope.md R19; log 5). -/
def Supply.next {α : Type} (free : Nat → α) (q : Supply α) : α × Supply α :=
  match q.queue with
  | a :: rest => (a, { q with queue := rest })
  | [] => (free q.taken, { q with taken := q.taken + 1 })

/-- The deadline of one READ: how many WAIT draws come before ELAPSED (40_serial_reader.md R79; log 6). -/
def drawDeadline (s : State) : Nat × State :=
  let draw := s.env.deadlines.next Config.freeDeadline
  (draw.1, { s with env := { s.env with deadlines := draw.2 } })

/-- NAN_RESULT: some NaN (42_calibration.md R102; log 9). -/
def drawNan (s : State) : F64 × State :=
  (nanFrom (Config.freeNan s.env.nans), { s with env := { s.env with nans := s.env.nans + 1 } })

/-! ## Port primitives -/

/-- Append one event to the port trace (20_memory.md R39). -/
def emit (e : PortEvent) (s : State) : State := { s with trace := s.trace ++ [e] }

/-- `PortOpen(chip)` (20_memory.md R40): on OK a handle with no claims, on OPEN_FAIL nothing is held. -/
def portOpen (chip : ChipId) (s : State) : OpenResult × State :=
  let draw := s.env.opens.next Config.freeOpen
  (draw.1,
    emit (.openPort chip draw.1)
      { s with
        env := { s.env with opens := draw.2 }
        port := match draw.1 with
          | .ok => some { chip := chip, claims := [] }
          | .openFail => none })

/-- The handle already holds a claim on the pin (20_memory.md R41). -/
def alreadyClaimed (port : Option Handle) (pin : PinId) : Bool :=
  match port with
  | some h => h.claims.any fun c => c.pin == pin
  | none => false

/-- The result of a claim: forced to fail on a pin already claimed, else drawn (20_memory.md R41). -/
def drawClaim (pin : PinId) (s : State) : ClaimResult × State :=
  if alreadyClaimed s.port pin then (.claimFail, s)
  else
    let draw := s.env.claims.next Config.freeClaim
    (draw.1, { s with env := { s.env with claims := draw.2 } })

/-- The handle with one more claim. -/
def Handle.addClaim (pin : PinId) (dir : Direction) (h : Handle) : Handle :=
  { h with claims := h.claims ++ [{ pin := pin, dir := dir }] }

/-- `PortClaimIn(pin)` (20_memory.md R41). -/
def portClaimIn (pin : PinId) (s : State) : ClaimResult × State :=
  let draw := drawClaim pin s
  (draw.1,
    emit (.claimIn pin draw.1)
      { draw.2 with
        port := match draw.1 with
          | .ok => draw.2.port.map (Handle.addClaim pin .input)
          | .claimFail => draw.2.port })

/-- `PortClaimOut(pin)` (20_memory.md R41). The newly claimed wire is at PORT_CLAIM_LEVEL until the first write
(00_scope.md R13, 44_lifecycle.md R121; log 8). -/
def portClaimOut (pin : PinId) (s : State) : ClaimResult × State :=
  let draw := drawClaim pin s
  (draw.1,
    emit (.claimOut pin draw.1)
      { draw.2 with
        port := match draw.1 with
          | .ok => draw.2.port.map (Handle.addClaim pin .output)
          | .claimFail => draw.2.port
        regs := match draw.1 with
          | .ok => { draw.2.regs with clk := .driven Config.portClaimLevel }
          | .claimFail => draw.2.regs })

/-- `PinWrite(pin, level)` (20_memory.md R42). -/
def pinWrite (pin : PinId) (level : Level) (s : State) : State :=
  emit (.write pin level) { s with regs := { s.regs with clk := .driven level } }

/-- `PinRead(pin)`: a drawn level; no register and no wire changes (20_memory.md R43). -/
def pinRead (pin : PinId) (s : State) : Level × State :=
  let draw := s.env.levels.next Config.freeLevel
  (draw.1, emit (.read pin draw.1) { s with env := { s.env with levels := draw.2 } })

/-- `HoldHigh(pin, t)`: the event of an untimed model (20_memory.md R44). -/
def holdHigh (pin : PinId) (time : HoldTime) (s : State) : State :=
  emit (.hold pin time) { s with regs := { s.regs with clk := .driven true } }

/-- `PortClose()`: the handle and its claims are given up, and no wire is driven (20_memory.md R45). -/
def portClose (s : State) : State :=
  emit .closePort { s with port := none, regs := { s.regs with clk := .undriven } }

/-! ## Completion -/

/-- The response of 30_encoding.md R62, sent with LIFE and PWR as they are after the command. -/
def respond (st : Status) (result : F64) (s : State) : State :=
  { s with responses := s.responses ++ [{ resp := respWord st s.regs.life s.regs.pwr, result := result }] }

/-- `complete(status)`, with RESULT 0 (00_scope.md R18). -/
def complete (st : Status) (s : State) : Result := .next (respond st 0 s)

/-- `raise Status`: a synchronous status return and nothing else (00_scope.md R18, 60_exceptions.md R143). -/
def raise (st : Status) (s : State) : Result := complete st s

/-! ## Dispatch -/

/-- DISPATCH after the decode: its checks in their order, then the command's rule (44_lifecycle.md R118). -/
def dispatch (op : Opcode) (s : State) (rule : State → Result) : Result :=
  if s.regs.life = .closed then
    if op = .close then complete .ok s else raise .useAfterClose s
  else if s.regs.life = .uninit ∧ ¬(op = .configure ∨ op = .close) then raise .invalidState s
  else if s.regs.life = .ready ∧ op = .configure then raise .invalidState s
  else if (op = .tare ∨ op = .getWeight) ∧ s.regs.pwr = .asleep then raise .invalidState s
  else rule s

/-- A command word that decodes to ILLEGAL (30_encoding.md R70, 60_exceptions.md R139). -/
def execIllegal (s : State) : Result := raise .illegalCommand s

/-- Read DATA_PIN; holding no value is a fault (10_state.md R20; log 7). -/
def withDataPin (s : State) (k : PinId → Result) : Result :=
  match s.regs.dataPin with
  | some d => k d
  | none => .fault .dataPinNoValue

/-- Read CLOCK_PIN; holding no value is a fault (10_state.md R20; log 7). -/
def withClockPin (s : State) (k : PinId → Result) : Result :=
  match s.regs.clockPin with
  | some c => k c
  | none => .fault .clockPinNoValue

/-! ## The host channel -/

/-- Take the next command the host presents, if there is one (20_memory.md R54; log 2). -/
def takeCommand (s : State) : Option (Command × State) :=
  match s.commands with
  | c :: rest => some (c, { s with commands := rest })
  | [] => none

/-- Have the host present a command before the others (log 13). -/
def presentCommand (c : Command) (s : State) : State := { s with commands := c :: s.commands }

end Sys2Proof.Machine
end

