-- ==== Sys2Proof/Machine/Reader.lean ====
section
/-!
DEFINITION. The SerialBitReader: READ (40_serial_reader.md R77), the sum over the READs of one command, and
SET_READING_FORMAT (R90).
-/

namespace Sys2Proof.Machine

/-- The ready wait (R78, R79): `true` when a read returned 0, `false` when the deadline elapsed. `waits` is how many WAIT
draws are left before ELAPSED is drawn (log 6). -/
def readyWait (d : PinId) : Nat → State → Bool × State
  | 0, s =>
    let r := pinRead d s
    (!r.1, r.2)
  | waits + 1, s =>
    let r := pinRead d s
    if r.1 = false then (true, r.2) else readyWait d waits r.2

/-- The pulses left of the data phase, shifting each sampled bit into `acc` (R81). -/
def dataPhase (d c : PinId) : Nat → Raw → State → Raw × State
  | 0, acc, s => (acc, s)
  | pulses + 1, acc, s =>
    let r := pinRead d (pinWrite c true s)
    dataPhase d c pulses (shiftIn acc r.1) (pinWrite c false r.2)

/-- The selector phase: pulses without a sample (R82). -/
def selectorPhase (c : PinId) : Nat → State → State
  | 0, s => s
  | pulses + 1, s => selectorPhase c pulses (pinWrite c false (pinWrite c true s))

/-- The ready wait of a READ, under its own deadline (R79). -/
def awaitReady (d : PinId) (s : State) : Bool × State :=
  readyWait d (drawDeadline s).1 (drawDeadline s).2

/-- READ(P) on the pins `d` and `c`: a Sample, or `none` for SensorTimeout (R77, R80). -/
def readSample (d c : PinId) (p : Nat) (s : State) : Option Int × State :=
  let wait := awaitReady d s
  if wait.1 then
    let capture := dataPhase d c 24 0 wait.2
    (some (decodeSample capture.2.regs.bitOrder capture.1), selectorPhase c (p - 24) capture.2)
  else (none, wait.2)

/-- The READs left of one TARE or GET_WEIGHT, adding to `sum`; `none` at the first one that times out
(42_calibration.md R105, R108). -/
def sumReads (d c : PinId) (p : Nat) : Nat → Int → State → Option Int × State
  | 0, sum, s => (some sum, s)
  | reads + 1, sum, s =>
    let r := readSample d c p s
    match r.1 with
    | some sample => sumReads d c p reads (sum + sample) r.2
    | none => (none, r.2)

/-- The READs of one TARE or GET_WEIGHT of `n` Samples on the pins of S, then `finish` on their sum, or on `none` after the
one that times out. A READ reads DATA_PIN in its ready wait and CLOCK_PIN only from the first pulse on (R77, R78, R81), so
a first READ that times out ends the command whether or not CLOCK_PIN holds a value (R80; log 7). -/
def runReads (n : Nat) (finish : Option Int × State → State) (s : State) : Result :=
  withDataPin s fun d =>
    if s.regs.clockPin = none ∧ (awaitReady d s).1 = false then .next (finish (none, (awaitReady d s).2))
    else withClockPin s fun c => .next (finish (sumReads d c (pulsesPerRead s.regs.gain) n 0 s))

/-- SET_READING_FORMAT (R90): both orders are written, or neither. -/
def execSetReadingFormat (bito byteo : BitVec 2) (s : State) : Result :=
  dispatch .setReadingFormat s fun s =>
    match orderOfCode byteo, orderOfCode bito with
    | some byte, some bit => complete .ok { s with regs := { s.regs with byteOrder := byte, bitOrder := bit } }
    | _, _ => raise .invalidFormat s

end Sys2Proof.Machine
end

