-- ==== Sys2Proof/Machine/Calibration.lean ====
section
/-!
DEFINITION. The CalibrationState and the WeightConverter: SET_REFERENCE_UNIT, TARE and GET_WEIGHT
(42_calibration.md R103, R105, R108).
-/

namespace Sys2Proof.Machine

/-- SET_REFERENCE_UNIT (R103): +0.0 and -0.0 are rejected, every other pattern is stored as it is. -/
def execSetReferenceUnit (u : F64) (s : State) : Result :=
  dispatch .setReferenceUnit s fun s =>
    if f64IsZero u then raise .invalidReferenceUnit s
    else complete .ok { s with regs := { s.regs with refUnit := u } }

/-- The end of TARE: OFFSET is written once, after the last READ (R105, R107). -/
def finishTare (n : Nat) (reads : Option Int × State) : State :=
  match reads.1 with
  | some sum => respond .ok 0 { reads.2 with regs := { reads.2.regs with offset := meanOf sum n } }
  | none => respond .sensorTimeout 0 reads.2

/-- TARE (R105). -/
def execTare (nm1 : BitVec 16) (s : State) : Result :=
  dispatch .tare s fun s => runReads (sampleCount nm1) (finishTare (sampleCount nm1)) s

/-- The response of a GET_WEIGHT whose READs are done: the weight, or NAN_RESULT where it is a NaN (R102, R108). -/
def respondWeight (weight : Option F64) (s : State) : State :=
  match weight with
  | some w => respond .ok w s
  | none => respond .ok (drawNan s).1 (drawNan s).2

/-- The end of GET_WEIGHT (R108). -/
def finishWeight (n : Nat) (reads : Option Int × State) : State :=
  match reads.1 with
  | some sum =>
    respondWeight (weightOf (meanOf sum n) reads.2.regs.offset reads.2.regs.refUnit) reads.2
  | none => respond .sensorTimeout 0 reads.2

/-- GET_WEIGHT (R108), with the defensive check of REF_UNIT before any READ (R109). -/
def execGetWeight (nm1 : BitVec 16) (s : State) : Result :=
  dispatch .getWeight s fun s =>
    if f64IsZero s.regs.refUnit then raise .invalidReferenceUnit s
    else runReads (sampleCount nm1) (finishWeight (sampleCount nm1)) s

end Sys2Proof.Machine
end

