-- ==== Sys2Proof/Machine/Gain.lean ====
section
/-!
DEFINITION. The GainChannelSelector's command SET_GAIN_CHANNEL (41_gain_selector.md R98).
-/

namespace Sys2Proof.Machine

/-- SET_GAIN_CHANNEL (R98). -/
def execSetGainChannel (gc : BitVec 2) (s : State) : Result :=
  dispatch .setGainChannel s fun s =>
    match gainOfCode gc with
    | some g => complete .ok { s with regs := { s.regs with gain := g } }
    | none => raise .invalidFormat s

end Sys2Proof.Machine
end

