-- ==== Sys2Proof/Machine/Lifecycle.lean ====
section
/-!
DEFINITION. The Driver facade's session: CONFIGURE and CLOSE (44_lifecycle.md R121, R124).
-/

namespace Sys2Proof.Machine

/-- The end of CONFIGURE once both pins are claimed: the clock is driven low and the session's registers are written. -/
def openSession (chip : ChipId) (clk dat : PinId) (s : State) : State :=
  let low := pinWrite clk false s
  { low with
    regs := { low.regs with
      dataPin := some dat
      clockPin := some clk
      chipId := some chip
      portOpen := true
      pwr := .awake
      life := .ready } }

/-- CONFIGURE's pseudocode (R121): open, claim the data pin, claim the clock pin, and unwind at the first failure
(R122, R123). -/
def configureSession (chip : ChipId) (clk dat : PinId) (s : State) : State :=
  let opened := portOpen chip s
  match opened.1 with
  | .openFail => respond .gpioOpenError 0 opened.2
  | .ok =>
    let input := portClaimIn dat opened.2
    match input.1 with
    | .claimFail => respond .gpioClaimError 0 (portClose input.2)
    | .ok =>
      let output := portClaimOut clk input.2
      match output.1 with
      | .claimFail => respond .gpioClaimError 0 (portClose output.2)
      | .ok => respond .ok 0 (openSession chip clk dat output.2)

/-- CONFIGURE (R121). -/
def execConfigure (chip : ChipId) (clk dat : PinId) (s : State) : Result :=
  dispatch .configure s fun s => .next (configureSession chip clk dat s)

/-- CLOSE (R124): from READY the clock goes low and the port is released; from UNINIT nothing is touched. -/
def execClose (s : State) : Result :=
  dispatch .close s fun s =>
    if s.regs.life = .ready then
      withClockPin s fun c =>
        let released := portClose (pinWrite c false s)
        complete .ok
          { released with regs := { released.regs with portOpen := false, pwr := .awake, life := .closed } }
    else complete .ok { s with regs := { s.regs with life := .closed } }

end Sys2Proof.Machine
end

