-- ==== Sys2Proof/Machine/Power.lean ====
section
/-!
DEFINITION. The PowerController: POWER_DOWN and POWER_UP (43_power.md R113, R114).
-/

namespace Sys2Proof.Machine

/-- POWER_DOWN (R113): the clock goes high, is held, and stays high. -/
def execPowerDown (s : State) : Result :=
  dispatch .powerDown s fun s =>
    withClockPin s fun c =>
      let held := holdHigh c .pdHold (pinWrite c true s)
      complete .ok { held with regs := { held.regs with pwr := .asleep } }

/-- POWER_UP (R114): the clock goes low; nothing waits for the ADC to settle (R115). -/
def execPowerUp (s : State) : Result :=
  dispatch .powerUp s fun s =>
    withClockPin s fun c =>
      let low := pinWrite c false s
      complete .ok { low with regs := { low.regs with pwr := .awake } }

end Sys2Proof.Machine
end

