-- ==== Sys2Proof/Machine/Dispatch.lean ====
section
/-!
DEFINITION. One arm per command of 30_encoding.md R69.
-/

namespace Sys2Proof.Machine

open Sys2Proof

def exec (i : Instr) (s : State) : Host.Outcome State Fault Refusal :=
  match i with
  | .configure chip clk dat => Sys2Proof.Machine.execConfigure chip clk dat s
  | .setReadingFormat bito byteo => Sys2Proof.Machine.execSetReadingFormat bito byteo s
  | .setReferenceUnit u => Sys2Proof.Machine.execSetReferenceUnit u s
  | .tare nm1 => Sys2Proof.Machine.execTare nm1 s
  | .getWeight nm1 => Sys2Proof.Machine.execGetWeight nm1 s
  | .powerDown => Sys2Proof.Machine.execPowerDown s
  | .powerUp => Sys2Proof.Machine.execPowerUp s
  | .close => Sys2Proof.Machine.execClose s
  | .setGainChannel gc => Sys2Proof.Machine.execSetGainChannel gc s

end Sys2Proof.Machine
end

