-- ==== Sys2Proof/Machine/Step.lean ====
section
/-!
DEFINITION. One step: take the next command from the host channel and run it to its response (20_memory.md R54).
-/

namespace Sys2Proof.Machine

/-- One step. With no command presented the block waits (70_reset_and_hazards.md R157); an ILLEGAL word answers
IllegalCommand (30_encoding.md R70); a decoded command runs. -/
def step (s : State) : Host.Outcome State Fault Refusal :=
  match takeCommand s with
  | none => .next s
  | some (c, s') =>
    match decode c with
    | none => execIllegal s'
    | some i => exec i s'

/-- The state in which the host presents, next, the command whose bits are `w` (log 13). -/
def State.withFetchWord (s : State) (nbits w : Nat) : State := presentCommand (commandOfBits nbits w) s

end Sys2Proof.Machine
end

