-- ==== Sys2Proof/Safety.lean ====
section
/-!
DEFINITION. The terms the claims use: the answers to come, the events of a READ, the contract of the port
(20_memory.md R39 to R46), the invariant of the state between commands (10_state.md R31 to R34), the clock-high
discipline of a READ (R35), and the meaning of binary64 values and of rounding (00_scope.md R16).
-/

namespace Sys2Proof.Machine

/-! ## The answers to come -/

/-- The k-th answer a supply will give, counting from 0. -/
def Supply.nth {α : Type} (free : Nat → α) (q : Supply α) (k : Nat) : α :=
  q.queue.getD k (free (q.taken + (k - q.queue.length)))

/-- A supply after k answers. -/
def Supply.drop {α : Type} (q : Supply α) (k : Nat) : Supply α :=
  { queue := q.queue.drop k, taken := q.taken + (k - q.queue.length) }

/-- The level that the k-th `PinRead` from here will answer (20_memory.md R43). -/
def State.levelAt (s : State) (k : Nat) : Level := s.env.levels.nth Config.freeLevel k

/-- How many WAIT draws the next READ's ready wait takes at most (40_serial_reader.md R79). -/
def State.nextDeadline (s : State) : Nat := s.env.deadlines.nth Config.freeDeadline 0

/-! ## Responses -/

/-- The code of LIFE (30_encoding.md R73). -/
def lifeNumber : Life → Nat
  | .uninit => 0
  | .ready => 1
  | .closed => 2

/-- The code of PWR (30_encoding.md R73). -/
def pwrNumber : Pwr → Nat
  | .awake => 0
  | .asleep => 1

/-- The state with one more response: RESP = STATUS | LIFE << 4 | PWR << 6, with LIFE and PWR after the command, and
RESULT (30_encoding.md R62, R73). -/
def answered (status : Nat) (result : F64) (s : State) : State :=
  { s with
    responses := s.responses ++
      [{ resp := BitVec.ofNat 32
          (status + 16 * lifeNumber s.regs.life + 64 * pwrNumber s.regs.pwr)
         result := result }] }

/-- The STATUS field of a response, RESP[3:0] (30_encoding.md R62). -/
def Response.status (r : Response) : Nat := (r.resp.extractLsb' 0 4).toNat

/-! ## The events of a READ -/

/-- The pulses of a READ by mode (41_gain_selector.md R92). -/
def readPulses : Gain → Nat
  | .a128 => 25
  | .b32 => 26
  | .a64 => 27

/-- The reads of a ready wait: k reads that answer 1 (40_serial_reader.md R78). -/
def waitEvents (d : PinId) (k : Nat) : List PortEvent := List.replicate k (.read d true)

/-- One pulse of the data phase (40_serial_reader.md R81). -/
def dataPulse (d c : PinId) (b : Level) : List PortEvent := [.write c true, .read d b, .write c false]

/-- The data phase: 24 pulses, pulse i sampling `bit i` (40_serial_reader.md R81). -/
def dataEvents (d c : PinId) (bit : Nat → Level) : List PortEvent :=
  (List.range 24).flatMap fun i => dataPulse d c (bit i)

/-- The selector phase: k pulses without a sample (40_serial_reader.md R82). -/
def selectorEvents (c : PinId) (k : Nat) : List PortEvent :=
  (List.range k).flatMap fun _ => [.write c true, .write c false]

/-- READs that succeed one after another, with their Samples in order: from the first state to the last. -/
def ReadsDone (d c : PinId) (p : Nat) : List Int → State → State → Prop
  | [], s, t => s = t
  | x :: xs, s, t => ∃ u, readSample d c p s = (some x, u) ∧ ReadsDone d c p xs u t

/-- Rising edges of the clock in a list of events, from a given wire: a write of the level the wire already has makes no
edge (20_memory.md R42). -/
def risingEdges : Wire → List PortEvent → Nat
  | _, [] => 0
  | w, .write _ true :: es => (if w = .driven true then 0 else 1) + risingEdges (.driven true) es
  | _, .write _ false :: es => risingEdges (.driven false) es
  | w, _ :: es => risingEdges w es

/-- The clock-high discipline of a READ in its untimed form (10_state.md R35, 40_serial_reader.md R83): no hold, and each
clock-high write is followed by the clock-low write with at most one data read between them. -/
def pulsesClosed : List PortEvent → Bool
  | [] => true
  | .write c true :: .write c' false :: es => c == c' && pulsesClosed es
  | .write c true :: .read _ _ :: .write c' false :: es => c == c' && pulsesClosed es
  | .write _ true :: _ => false
  | .hold _ _ :: _ => false
  | .openPort _ _ :: es => pulsesClosed es
  | .claimIn _ _ :: es => pulsesClosed es
  | .claimOut _ _ :: es => pulsesClosed es
  | .write _ false :: es => pulsesClosed es
  | .read _ _ :: es => pulsesClosed es
  | .closePort :: es => pulsesClosed es

/-! ## The port's contract -/

/-- What the port trace alone says of the port: the handle with its claims, and the clock wire. -/
structure PortView where
  port : Option Handle
  clk : Wire
deriving DecidableEq, Repr

/-- The port before any primitive (70_reset_and_hazards.md R156). -/
def PortView.initial : PortView := { port := none, clk := .undriven }

/-- A claim's result against the contract: it needs a handle, and a pin already claimed fails (20_memory.md R41). -/
def PortView.claim (v : PortView) (pin : PinId) (dir : Direction) (result : ClaimResult) : Option PortView :=
  match v.port with
  | none => none
  | some h =>
    match result with
    | .claimFail => some v
    | .ok =>
      if h.claims.any fun k => k.pin == pin then none
      else
        some
          { port := some { h with claims := h.claims ++ [{ pin := pin, dir := dir }] }
            clk := if dir = .output then .driven Config.portClaimLevel else v.clk }

/-- The handle holds this claim. -/
def PortView.holds (v : PortView) (pin : PinId) (dir : Direction) : Bool :=
  match v.port with
  | none => false
  | some h => h.claims.contains { pin := pin, dir := dir }

/-- One event against the port's contract, `none` when the contract forbids it: an open needs no handle held
(20_memory.md R39), a claim an open handle and a free pin (R41), a write the output claim (R42), a read the input claim
(R43), a hold the output claim and a clock already at 1 (R44), a close a handle (R45). -/
def PortView.accept (v : PortView) : PortEvent → Option PortView
  | .openPort chip result =>
    if v.port = none then
      some { v with port := if result = .ok then some { chip := chip, claims := [] } else none }
    else none
  | .claimIn pin result => v.claim pin .input result
  | .claimOut pin result => v.claim pin .output result
  | .write pin level => if v.holds pin .output then some { v with clk := .driven level } else none
  | .read pin _ => if v.holds pin .input then some v else none
  | .hold pin _ => if v.holds pin .output && v.clk == .driven true then some v else none
  | .closePort => if v.port = none then none else some { port := none, clk := .undriven }

/-- A list of events against the port's contract. -/
def PortView.replay : PortView → List PortEvent → Option PortView
  | v, [] => some v
  | v, e :: es =>
    match v.accept e with
    | none => none
    | some v' => PortView.replay v' es

/-- The trace so far keeps the port's contract, and leaves the port as the state says it is. -/
def State.SafeTrace (s : State) : Prop :=
  PortView.initial.replay s.trace = some { port := s.port, clk := s.regs.clk }

/-! ## The invariant between commands -/

/-- What holds of the state between commands. -/
structure State.Inv (s : State) : Prop where
  /-- REF_UNIT is never +0.0 or -0.0 (10_state.md R32). -/
  refUnit_nonzero : f64IsZero s.regs.refUnit = false
  /-- PORT_OPEN = 1 if and only if LIFE = READY (R33). -/
  portOpen_iff_ready : s.regs.portOpen = true ↔ s.regs.life = .ready
  /-- In READY and AWAKE the clock is at 0 (R34). -/
  clk_awake : s.regs.life = .ready → s.regs.pwr = .awake → s.regs.clk = .driven false
  /-- In READY and ASLEEP the clock is at 1 (R34). -/
  clk_asleep : s.regs.life = .ready → s.regs.pwr = .asleep → s.regs.clk = .driven true
  /-- In UNINIT and CLOSED the block drives no pin (R34). -/
  clk_undriven : s.regs.life ≠ .ready → s.regs.clk = .undriven
  /-- In UNINIT and CLOSED PWR holds AWAKE (R22). -/
  pwr_awake : s.regs.life ≠ .ready → s.regs.pwr = .awake
  /-- In READY the pins and the chip hold values, and the port holds exactly the two claims (R31). -/
  session : s.regs.life = .ready → ∃ d c chip, d ≠ c ∧ s.regs.dataPin = some d ∧ s.regs.clockPin = some c ∧
    s.regs.chipId = some chip ∧
    s.port = some { chip := chip, claims := [{ pin := d, dir := .input }, { pin := c, dir := .output }] }
  /-- In UNINIT and CLOSED the port holds nothing for the block (R31). -/
  no_session : s.regs.life ≠ .ready → s.port = none

/-! ## binary64 -/

/-- The value of a finite pattern, by the binary64 layout (30_encoding.md R68, 93_implementation_defined.md I1). -/
def f64Value (x : F64) : ℚ :=
  (if f64Sign x then -1 else 1) *
    (if f64Exp x = 0 then (f64Frac x : ℚ) * 2 ^ (-1074 : ℤ)
      else (1 + (f64Frac x : ℚ) / 2 ^ 52) * 2 ^ ((f64Exp x : ℤ) - 1023))

/-- `y` is `q` rounded to nearest, ties to even (00_scope.md R16): no finite pattern is nearer, a tie goes to the even
fraction, the sign is that of `q`, and what lies half a unit or more past the largest finite value is infinity. -/
def IsRounded (q : ℚ) (y : F64) : Prop :=
  f64Sign y = decide (q < 0) ∧
    if |q| < 2 ^ 1024 - 2 ^ 970 then
      f64IsFinite y = true ∧
      ∀ z, f64IsFinite z = true →
        |f64Value y - q| ≤ |f64Value z - q| ∧
        (|f64Value y - q| = |f64Value z - q| → f64Value z ≠ f64Value y → f64Frac y % 2 = 0)
    else f64IsInf y = true

/-- OFFSET is finite and no larger in magnitude than a Sample can be (10_state.md R28, 42_calibration.md R105). -/
def State.OffsetBounded (s : State) : Prop :=
  f64IsFinite s.regs.offset = true ∧ |f64Value s.regs.offset| ≤ 2 ^ 23

end Sys2Proof.Machine
end

