-- ==== Sys2Proof/Certificates/Slice0/Obligations.lean ====
section
/-!
DEFINITION. The statements for the provers. Each docstring names the rules of spec/ it formalises. A state in a statement
is any state; where a statement needs the invariant of the state between commands it says `s.Inv`, and
`StepKeepsTheInvariant` and `ResetMeetsTheInvariants` state that invariant.
-/

open Sys2Proof Sys2Proof.Machine

/-! ## Reset -/

/-- 70_reset_and_hazards.md R155 and R156: the reset value of every field of S; no port primitive, no handle. -/
def Obligations.ResetLeavesTheTableValues : Prop :=
  State.reset.regs.life = .uninit ∧ State.reset.regs.pwr = .awake ∧
  State.reset.regs.byteOrder = .msb ∧ State.reset.regs.bitOrder = .msb ∧
  State.reset.regs.gain = .a128 ∧
  State.reset.regs.offset = 0x0000000000000000 ∧ State.reset.regs.refUnit = 0x3FF0000000000000 ∧
  State.reset.regs.dataPin = none ∧ State.reset.regs.clockPin = none ∧ State.reset.regs.chipId = none ∧
  State.reset.regs.portOpen = false ∧ State.reset.regs.clk = .undriven ∧
  State.reset.trace = [] ∧ State.reset.port = none

/-- The state after reset meets the invariants whose preservation is stated below. -/
def Obligations.ResetMeetsTheInvariants : Prop :=
  State.reset.Inv ∧ State.reset.SafeTrace ∧ State.reset.OffsetBounded

/-! ## Encoding -/

/-- Words of the spec's encoding examples (30_encoding.md section 7, 95_test_vectors.md 2.1). -/
def Obligations.ExampleWordsDecode : Prop :=
  decode { cmd := 0x01000605, arg := 0 } = some (.configure 0 6 5) ∧
  decode { cmd := 0x02000004, arg := 0 } = some (.setReadingFormat 1 0) ∧
  decode { cmd := 0x02000001, arg := 0 } = some (.setReadingFormat 0 1) ∧
  decode { cmd := 0x03000000, arg := 0x4000000000000000 } = some (.setReferenceUnit 0x4000000000000000) ∧
  decode { cmd := 0x04000009, arg := 0 } = some (.tare 9) ∧
  decode { cmd := 0x0500FFFF, arg := 0 } = some (.getWeight 0xFFFF) ∧
  decode { cmd := 0x06000000, arg := 0 } = some .powerDown ∧
  decode { cmd := 0x07000000, arg := 0 } = some .powerUp ∧
  decode { cmd := 0x08000000, arg := 0 } = some .close ∧
  decode { cmd := 0x09000002, arg := 0 } = some (.setGainChannel 2) ∧
  decode { cmd := 0x00000000, arg := 0 } = none ∧
  decode { cmd := 0x04010000, arg := 0 } = none

/-- 30_encoding.md R63 to R69: the decoder reads back every command the encoder writes, every operand at every value. -/
def Obligations.DecodeInvertsEncode : Prop :=
  ∀ i : Instr, decode (encode i) = some i

/-- 30_encoding.md R63 to R69, the other way: a word that decodes is the word the encoder writes, and ARG is kept where
it has a meaning. -/
def Obligations.EncodeInvertsDecode : Prop :=
  ∀ (c : Command) (i : Instr), decode c = some i →
    (encode i).cmd = c.cmd ∧ (i.opcode = .setReferenceUnit → (encode i).arg = c.arg)

/-- 30_encoding.md R69: a word selects a row exactly when (CMD & mask) = match, and it selects at most one. -/
def Obligations.OpcodeMapSelectsAtMostOneRow : Prop :=
  ∀ c : Command,
    (∀ row ∈ ([(.configure, 0x01000000, 0xFF000000), (.setReadingFormat, 0x02000000, 0xFFFFFFF0),
        (.setReferenceUnit, 0x03000000, 0xFFFFFFFF), (.tare, 0x04000000, 0xFFFF0000),
        (.getWeight, 0x05000000, 0xFFFF0000), (.powerDown, 0x06000000, 0xFFFFFFFF),
        (.powerUp, 0x07000000, 0xFFFFFFFF), (.close, 0x08000000, 0xFFFFFFFF),
        (.setGainChannel, 0x09000000, 0xFFFFFFFC)] : List (Opcode × Word × Word)),
      c.cmd &&& row.2.2 = row.2.1 ↔ (decode c).map Instr.opcode = some row.1) ∧
    ∀ op op' : Opcode, op.selects c.cmd = true → op'.selects c.cmd = true → op = op'

/-- 30_encoding.md R70, 60_exceptions.md R139: a word that matches a row decodes to its operation, ILLEGAL words are
exactly the two kinds, and an ILLEGAL command answers IllegalCommand in every state, changing no register and issuing no
primitive. -/
def Obligations.IllegalWordsAreTheTwoKinds : Prop :=
  (∀ (c : Command) (op : Opcode), op.selects c.cmd = true → (decode c).map Instr.opcode = some op) ∧
  (∀ c : Command, decode c = none ↔
    (c.cmd.extractLsb' 24 8 = 0x00 ∨ 0x0A ≤ c.cmd.extractLsb' 24 8) ∨
    (c.cmd.extractLsb' 24 8 = 0x02 ∧ c.cmd.extractLsb' 4 20 ≠ 0) ∨
    (c.cmd.extractLsb' 24 8 ∈ ([0x03, 0x06, 0x07, 0x08] : List (BitVec 8)) ∧ c.cmd.extractLsb' 0 24 ≠ 0) ∨
    (c.cmd.extractLsb' 24 8 ∈ ([0x04, 0x05] : List (BitVec 8)) ∧ c.cmd.extractLsb' 16 8 ≠ 0) ∨
    (c.cmd.extractLsb' 24 8 = 0x09 ∧ c.cmd.extractLsb' 2 22 ≠ 0)) ∧
  ∀ (s : State) (c : Command) (rest : List Command), s.commands = c :: rest → decode c = none →
    step s = .next (answered 8 0 { s with commands := rest })

/-- 30_encoding.md R61: for every opcode other than SET_REFERENCE_UNIT, ARG is ignored. -/
def Obligations.ArgumentIsIgnoredElsewhere : Prop :=
  ∀ (s : State) (w : Word) (a b : F64) (rest : List Command), w.extractLsb' 24 8 ≠ 0x03 →
    decode { cmd := w, arg := a } = decode { cmd := w, arg := b } ∧
    step { s with commands := { cmd := w, arg := a } :: rest } =
      step { s with commands := { cmd := w, arg := b } :: rest }

/-- 30_encoding.md R74 and R75: a textual command with operands in range assembles to one command, which decodes to it;
one with an operand out of range is rejected. R75 names only the counts and the ids: that an order or gain number above 3
assembles to nothing, and that the text is a term whose operands are numbers, is the model's choice (log 18). -/
def Obligations.AssembledCommandsDecode : Prop :=
  (∀ data clock chip : Nat,
    if data ≤ 255 ∧ clock ≤ 255 ∧ chip ≤ 255 then
      (assemble (.configure data clock chip)).bind decode =
        some (.configure (BitVec.ofNat 8 chip) (BitVec.ofNat 8 clock) (BitVec.ofNat 8 data))
    else assemble (.configure data clock chip) = none) ∧
  (∀ byte bit : Nat,
    if byte ≤ 3 ∧ bit ≤ 3 then
      (assemble (.setReadingFormat byte bit)).bind decode =
        some (.setReadingFormat (BitVec.ofNat 2 bit) (BitVec.ofNat 2 byte))
    else assemble (.setReadingFormat byte bit) = none) ∧
  (∀ u : F64, (assemble (.setReferenceUnit u)).bind decode = some (.setReferenceUnit u)) ∧
  (∀ n : Nat,
    if 1 ≤ n ∧ n ≤ 65536 then
      (assemble (.tare n)).bind decode = some (.tare (BitVec.ofNat 16 (n - 1))) ∧
      (assemble (.getWeight n)).bind decode = some (.getWeight (BitVec.ofNat 16 (n - 1)))
    else assemble (.tare n) = none ∧ assemble (.getWeight n) = none) ∧
  (∀ g : Nat,
    if g ≤ 3 then (assemble (.setGainChannel g)).bind decode = some (.setGainChannel (BitVec.ofNat 2 g))
    else assemble (.setGainChannel g) = none) ∧
  (assemble .powerDown).bind decode = some .powerDown ∧ (assemble .powerUp).bind decode = some .powerUp ∧
  (assemble .close).bind decode = some .close

/-! ## The step -/

/-- 20_memory.md R54, 70_reset_and_hazards.md R157, 30_encoding.md R70: a step takes the next command and runs exactly
the instruction it decodes to; with no command presented the block waits (the model's choice, log 2). -/
def Obligations.StepRunsThePresentedCommand : Prop :=
  (∀ s : State, s.commands = [] → step s = .next s) ∧
  (∀ (s : State) (c : Command) (rest : List Command) (i : Instr), s.commands = c :: rest → decode c = some i →
    step s = exec i { s with commands := rest }) ∧
  ∀ (s : State) (nbits w : Nat) (i : Instr), decodeTableWord nbits w = some i →
    step (s.withFetchWord nbits w) = exec i s

/-- 60_exceptions.md R142, 30_encoding.md R62: each command takes one command off the channel and sends exactly one
response, whose fields are those of R62. -/
def Obligations.EveryCommandSendsOneResponse : Prop :=
  ∀ (s t : State) (c : Command) (rest : List Command), s.commands = c :: rest → step s = .next t →
    t.commands = rest ∧
    ∃ r : Response, t.responses = s.responses ++ [r] ∧ r.status ≤ 8 ∧
      r.resp.extractLsb' 4 2 = t.regs.life.code ∧ r.resp.extractLsb' 6 1 = t.regs.pwr.code ∧
      r.resp.extractLsb' 7 25 = 0 ∧
      (r.result ≠ 0 → r.status = 0 ∧ ∃ nm1, decode c = some (.getWeight nm1))

/-- 44_lifecycle.md R129: no status disables the block, and no state that a run reaches stops it: between commands it
always takes the next one and answers. That every TARE and GET_WEIGHT comes to an end rests on the model's choice of one
finite number of waits for each READ, which takes the fairness assumption of R79 (log 6), and that a step with no command
presented changes nothing is the model's choice (log 2). -/
def Obligations.StepNeverStopsUnderTheInvariant : Prop :=
  ∀ s : State, s.Inv → ∃ t : State, step s = .next t

/-- 10_state.md R20: reading DATA_PIN or CLOCK_PIN while it holds no value is a model fault, at the read itself and not
before: TARE and GET_WEIGHT read DATA_PIN first, and CLOCK_PIN only once the ready wait has ended, so where their first READ
times out they answer SensorTimeout and do not fault (40_serial_reader.md R77, R78, R80; where the pins are read is log 7's
inference). -/
def Obligations.PinWithoutValueIsAFault : Prop :=
  ∀ s : State, s.regs.life = .ready →
    (s.regs.clockPin = none →
      exec .powerDown s = .fault .clockPinNoValue ∧ exec .powerUp s = .fault .clockPinNoValue ∧
      exec .close s = .fault .clockPinNoValue) ∧
    ∀ (nm1 : BitVec 16) (i : Instr), s.regs.pwr = .awake →
      i = .tare nm1 ∨ i = .getWeight nm1 ∧ f64IsZero s.regs.refUnit = false →
      (s.regs.dataPin = none → exec i s = .fault .dataPinNoValue) ∧
      ∀ d : PinId, s.regs.dataPin = some d → s.regs.clockPin = none →
        (∀ k ≤ s.nextDeadline, (∀ j < k, s.levelAt j = true) → s.levelAt k = false →
          exec i s = .fault .clockPinNoValue) ∧
        ((∀ j ≤ s.nextDeadline, s.levelAt j = true) →
          exec i s = .next (answered 3 0
            { s with
              trace := s.trace ++ waitEvents d (s.nextDeadline + 1)
              env := { s.env with
                deadlines := s.env.deadlines.drop 1
                levels := s.env.levels.drop (s.nextDeadline + 1) } }))

/-! ## Dispatch and lifecycle -/

/-- 44_lifecycle.md R119, 60_exceptions.md R137 and R138: the entries of the table that are not "runs". -/
def Obligations.LifecycleTableRefuses : Prop :=
  ∀ (i : Instr) (s : State),
    (s.regs.life = .closed → i = .close → exec i s = .next (answered 0 0 s)) ∧
    (s.regs.life = .closed → i ≠ .close → exec i s = .next (answered 6 0 s)) ∧
    (s.regs.life = .uninit → i.opcode ≠ .configure → i ≠ .close → exec i s = .next (answered 7 0 s)) ∧
    (s.regs.life = .ready → i.opcode = .configure → exec i s = .next (answered 7 0 s)) ∧
    (s.regs.life = .ready → s.regs.pwr = .asleep → i.opcode = .tare ∨ i.opcode = .getWeight →
      exec i s = .next (answered 7 0 s))

/-- 60_exceptions.md R141: a command whose status comes from steps 1 to 4 of R140 has an empty port trace, and leaves
every register, the port and the inputs as they were. -/
def Obligations.RefusedCommandsTouchNothing : Prop :=
  ∀ (s t : State) (c : Command) (rest : List Command) (r : Response), s.commands = c :: rest → step s = .next t →
    t.responses = s.responses ++ [r] → 4 ≤ r.status →
    t = { s with commands := rest, responses := s.responses ++ [r] }

/-- 44_lifecycle.md R126: CLOSED is terminal; no command leaves it, and no primitive is issued in it. -/
def Obligations.ClosedIsTerminal : Prop :=
  ∀ s t : State, s.regs.life = .closed → step s = .next t →
    t.regs = s.regs ∧ t.trace = s.trace ∧ t.port = s.port ∧ t.env = s.env

/-- 44_lifecycle.md R121 to R123, 20_memory.md R40 and R41: CONFIGURE in UNINIT, by the answers of the port. The second
claim is forced to fail when the pins are the same. -/
def Obligations.ConfigureOpensASessionOrNothing : Prop :=
  ∀ (s : State) (chip : ChipId) (clk dat : PinId), s.Inv → s.regs.life = .uninit →
    (s.env.opens.nth Config.freeOpen 0 = .openFail →
      exec (.configure chip clk dat) s = .next (answered 1 0
        { s with
          trace := s.trace ++ [.openPort chip .openFail]
          env := { s.env with opens := s.env.opens.drop 1 } })) ∧
    (s.env.opens.nth Config.freeOpen 0 = .ok → s.env.claims.nth Config.freeClaim 0 = .claimFail →
      exec (.configure chip clk dat) s = .next (answered 2 0
        { s with
          trace := s.trace ++ [.openPort chip .ok, .claimIn dat .claimFail, .closePort]
          env := { s.env with opens := s.env.opens.drop 1, claims := s.env.claims.drop 1 } })) ∧
    (s.env.opens.nth Config.freeOpen 0 = .ok → s.env.claims.nth Config.freeClaim 0 = .ok → dat = clk →
      exec (.configure chip clk dat) s = .next (answered 2 0
        { s with
          trace := s.trace ++
            [.openPort chip .ok, .claimIn dat .ok, .claimOut clk .claimFail, .closePort]
          env := { s.env with opens := s.env.opens.drop 1, claims := s.env.claims.drop 1 } })) ∧
    (s.env.opens.nth Config.freeOpen 0 = .ok → s.env.claims.nth Config.freeClaim 0 = .ok → dat ≠ clk →
      s.env.claims.nth Config.freeClaim 1 = .claimFail →
      exec (.configure chip clk dat) s = .next (answered 2 0
        { s with
          trace := s.trace ++
            [.openPort chip .ok, .claimIn dat .ok, .claimOut clk .claimFail, .closePort]
          env := { s.env with opens := s.env.opens.drop 1, claims := s.env.claims.drop 2 } })) ∧
    (s.env.opens.nth Config.freeOpen 0 = .ok → s.env.claims.nth Config.freeClaim 0 = .ok → dat ≠ clk →
      s.env.claims.nth Config.freeClaim 1 = .ok →
      exec (.configure chip clk dat) s = .next (answered 0 0
        { s with
          regs := { s.regs with
            dataPin := some dat, clockPin := some clk, chipId := some chip
            portOpen := true, pwr := .awake, life := .ready, clk := .driven false }
          port := some
            { chip := chip, claims := [{ pin := dat, dir := .input }, { pin := clk, dir := .output }] }
          trace := s.trace ++
            [.openPort chip .ok, .claimIn dat .ok, .claimOut clk .ok, .write clk false]
          env := { s.env with opens := s.env.opens.drop 1, claims := s.env.claims.drop 2 } }))

/-- 44_lifecycle.md R124: CLOSE from READY, from UNINIT and again in CLOSED. -/
def Obligations.CloseEndsTheSession : Prop :=
  ∀ s : State,
    (∀ c : PinId, s.regs.life = .ready → s.regs.clockPin = some c →
      exec .close s = .next (answered 0 0
        { s with
          regs := { s.regs with portOpen := false, pwr := .awake, life := .closed, clk := .undriven }
          port := none
          trace := s.trace ++ [.write c false, .closePort] })) ∧
    (s.regs.life = .uninit →
      exec .close s = .next (answered 0 0 { s with regs := { s.regs with life := .closed } })) ∧
    (s.regs.life = .closed → exec .close s = .next (answered 0 0 s))

/-! ## The setters -/

/-- 40_serial_reader.md R90: both orders are written together or neither is; no primitive is issued. -/
def Obligations.SetReadingFormatWritesBothOrNeither : Prop :=
  ∀ (s : State) (bito byteo : BitVec 2), s.regs.life = .ready →
    (byteo ≤ 1 → bito ≤ 1 →
      exec (.setReadingFormat bito byteo) s = .next (answered 0 0
        { s with regs := { s.regs with
            byteOrder := if byteo = 0 then .msb else .lsb
            bitOrder := if bito = 0 then .msb else .lsb } })) ∧
    (1 < byteo ∨ 1 < bito → exec (.setReadingFormat bito byteo) s = .next (answered 4 0 s))

/-- 41_gain_selector.md R98: GAIN is written, or InvalidFormat for GC = 3; no primitive is issued. -/
def Obligations.SetGainChannelWritesTheMode : Prop :=
  ∀ (s : State) (gc : BitVec 2), s.regs.life = .ready →
    (gc ≠ 3 →
      exec (.setGainChannel gc) s = .next (answered 0 0
        { s with regs := { s.regs with
            gain := if gc = 0 then .a128 else if gc = 1 then .b32 else .a64 } })) ∧
    (gc = 3 → exec (.setGainChannel gc) s = .next (answered 4 0 s))

/-- 42_calibration.md R103 and R104: +0.0 and -0.0, and nothing else, are rejected; every other pattern, negative,
subnormal, infinite or NaN, is stored as it is. -/
def Obligations.SetReferenceUnitRejectsOnlyZeros : Prop :=
  ∀ (s : State) (u : F64), s.regs.life = .ready →
    (u = 0x0000000000000000 ∨ u = 0x8000000000000000 →
      exec (.setReferenceUnit u) s = .next (answered 5 0 s)) ∧
    (u ≠ 0x0000000000000000 → u ≠ 0x8000000000000000 →
      exec (.setReferenceUnit u) s = .next (answered 0 0 { s with regs := { s.regs with refUnit := u } }))

/-! ## READ -/

/-- 40_serial_reader.md R77 to R82, R85, R87: READ(P) in every state. The first data-line read that answers 0 within the
deadline ends the wait; 24 pulses follow, the bit of pulse i landing in acc[23 - i]; then P - 24 selector pulses. With
no such read the READ times out after the reads alone. The levels and the deadline are the draws of R19 and R79 as the
model represents them: queues with free values behind them (log 5), and one finite number of waits for each READ (log 6).
So the model's choices are that a deadline is used up also by a READ that is ready at once, and, by the fairness
assumption of R79, that one of the two cases always holds. -/
def Obligations.ReadCapturesOneSampleOrTimesOut : Prop :=
  ∀ (s : State) (d c : PinId) (p : Nat), 25 ≤ p → p ≤ 27 →
    (∀ k : Nat, k ≤ s.nextDeadline → (∀ j < k, s.levelAt j = true) → s.levelAt k = false →
      ∃ acc : Raw, (∀ i < 24, acc.getLsbD (23 - i) = s.levelAt (k + 1 + i)) ∧
        readSample d c p s =
          (some (sext24 (if s.regs.bitOrder = .lsb then reverse24 acc else acc)),
            { s with
              regs := { s.regs with clk := .driven false }
              trace := s.trace ++ waitEvents d k ++ [.read d false] ++
                dataEvents d c (fun i => s.levelAt (k + 1 + i)) ++ selectorEvents c (p - 24)
              env := { s.env with
                deadlines := s.env.deadlines.drop 1
                levels := s.env.levels.drop (k + 25) } })) ∧
    ((∀ j ≤ s.nextDeadline, s.levelAt j = true) →
      readSample d c p s =
        (none,
          { s with
            trace := s.trace ++ waitEvents d (s.nextDeadline + 1)
            env := { s.env with
              deadlines := s.env.deadlines.drop 1
              levels := s.env.levels.drop (s.nextDeadline + 1) } })) ∧
    ((∃ k ≤ s.nextDeadline, (∀ j < k, s.levelAt j = true) ∧ s.levelAt k = false) ∨
      ∀ j ≤ s.nextDeadline, s.levelAt j = true)

/-- 40_serial_reader.md R88: how many primitives a READ issues after k ready-wait reads, its rising edges, and the clock it
leaves. -/
def Obligations.ReadIssuesTheCountedPrimitives : Prop :=
  ∀ (s t : State) (d c : PinId) (p : Nat), 25 ≤ p → p ≤ 27 → s.regs.clk = .driven false →
    (∀ x : Int, readSample d c p s = (some x, t) →
      ∃ (k : Nat) (wait pulses : List PortEvent), 1 ≤ k ∧ t.trace = s.trace ++ (wait ++ pulses) ∧
        wait = List.replicate (k - 1) (.read d true) ++ [.read d false] ∧ wait.length = k ∧
        pulses.length = 72 + 2 * (p - 24) ∧ pulses.head? = some (.write c true) ∧
        risingEdges s.regs.clk (wait ++ pulses) = p ∧ t.regs.clk = .driven false) ∧
    (readSample d c p s = (none, t) →
      ∃ k : Nat, 1 ≤ k ∧ t.trace = s.trace ++ List.replicate k (.read d true) ∧ t.regs = s.regs)

/-- 10_state.md R35 and 40_serial_reader.md R83 in untimed form: in the events of a READ no clock-high write stays open
past one data read, nothing holds the clock, and the bound on a pulse is below T_SLEEP. -/
def Obligations.ReadNeverHoldsTheClockHigh : Prop :=
  (∀ (s t : State) (d c : PinId) (p : Nat) (x : Option Int), readSample d c p s = (x, t) →
    ∃ es : List PortEvent, t.trace = s.trace ++ es ∧ pulsesClosed es = true) ∧
  Config.tHighMax < Config.tSleep

/-- 40_serial_reader.md R85 and R87, 00_scope.md R15: the reversal, the sign extension and the range of a Sample. -/
def Obligations.SampleIsReorderedThenSignExtended : Prop :=
  ∀ acc : Raw,
    (∀ i < 24, (reverse24 acc).getLsbD i = acc.getLsbD (23 - i)) ∧
    decodeSample .msb acc = sext24 acc ∧
    decodeSample .lsb acc = sext24 (reverse24 acc) ∧
    (acc.getLsbD 23 = true → sext24 acc = (acc.toNat : Int) - 16777216) ∧
    (acc.getLsbD 23 = false → sext24 acc = acc.toNat) ∧
    -8388608 ≤ sext24 acc ∧ sext24 acc ≤ 8388607

/-- 40_serial_reader.md R86: BYTE_ORDER has no effect on a READ, nor on what TARE and GET_WEIGHT do. -/
def Obligations.ByteOrderHasNoEffect : Prop :=
  ∀ (s : State) (o : Order),
    (∀ (d c : PinId) (p : Nat) (x : Option Int) (t : State), readSample d c p s = (x, t) →
      readSample d c p { s with regs := { s.regs with byteOrder := o } } =
        (x, { t with regs := { t.regs with byteOrder := o } })) ∧
    ∀ (nm1 : BitVec 16) (t : State),
      (exec (.tare nm1) s = .next t →
        exec (.tare nm1) { s with regs := { s.regs with byteOrder := o } } =
          .next { t with regs := { t.regs with byteOrder := o } }) ∧
      (exec (.getWeight nm1) s = .next t →
        exec (.getWeight nm1) { s with regs := { s.regs with byteOrder := o } } =
          .next { t with regs := { t.regs with byteOrder := o } })

/-! ## TARE and GET_WEIGHT -/

/-- 42_calibration.md R105 and R107, 41_gain_selector.md R92 and R93: TARE in READY and AWAKE. After n successful READs
OFFSET is their mean; at the first READ that times out it answers SensorTimeout with OFFSET as it was. That one of the
two always holds rests on the fairness assumption of R79, taken by the model's choice of log 6. -/
def Obligations.TareStoresTheMeanOfItsReads : Prop :=
  ∀ (s : State) (nm1 : BitVec 16) (d c : PinId), s.regs.life = .ready → s.regs.pwr = .awake →
    s.regs.dataPin = some d → s.regs.clockPin = some c →
    (∀ (xs : List Int) (u : State), xs.length = nm1.toNat + 1 →
      ReadsDone d c (readPulses s.regs.gain) xs s u →
      exec (.tare nm1) s = .next (answered 0 0
        { u with regs := { u.regs with offset := meanOf xs.sum (nm1.toNat + 1) } })) ∧
    (∀ (xs : List Int) (u t : State), xs.length < nm1.toNat + 1 →
      ReadsDone d c (readPulses s.regs.gain) xs s u → readSample d c (readPulses s.regs.gain) u = (none, t) →
      exec (.tare nm1) s = .next (answered 3 0 t) ∧ t.regs.offset = s.regs.offset) ∧
    ((∃ (xs : List Int) (u : State), xs.length = nm1.toNat + 1 ∧
        ReadsDone d c (readPulses s.regs.gain) xs s u) ∨
      ∃ (xs : List Int) (u t : State), xs.length < nm1.toNat + 1 ∧
        ReadsDone d c (readPulses s.regs.gain) xs s u ∧
        readSample d c (readPulses s.regs.gain) u = (none, t))

/-- 42_calibration.md R108, R101 and R102: GET_WEIGHT in READY and AWAKE. A zero REF_UNIT is refused before any READ.
After n successful READs RESULT is (mean - OFFSET) / REF_UNIT, or some NaN where that is a NaN; at the first READ that
times out it answers SensorTimeout. That each NaN result takes a fresh pattern, with its counter `nans`, is the model's
choice (log 9). That one of the last two always holds rests on the fairness assumption of R79, taken by the model's
choice of log 6. -/
def Obligations.GetWeightAnswersTheCalibratedMean : Prop :=
  ∀ (s : State) (nm1 : BitVec 16) (d c : PinId), s.regs.life = .ready → s.regs.pwr = .awake →
    s.regs.dataPin = some d → s.regs.clockPin = some c →
    (f64IsZero s.regs.refUnit = true → exec (.getWeight nm1) s = .next (answered 5 0 s)) ∧
    (f64IsZero s.regs.refUnit = false →
      (∀ (xs : List Int) (u : State), xs.length = nm1.toNat + 1 →
        ReadsDone d c (readPulses s.regs.gain) xs s u →
        (∀ w : F64,
          (fsub (meanOf xs.sum (nm1.toNat + 1)) s.regs.offset).bind (fun m => fdiv m s.regs.refUnit) = some w →
          exec (.getWeight nm1) s = .next (answered 0 w u)) ∧
        ((fsub (meanOf xs.sum (nm1.toNat + 1)) s.regs.offset).bind (fun m => fdiv m s.regs.refUnit) = none →
          ∃ nan : F64, f64IsNaN nan = true ∧
            exec (.getWeight nm1) s = .next (answered 0 nan
              { u with env := { u.env with nans := u.env.nans + 1 } }))) ∧
      (∀ (xs : List Int) (u t : State), xs.length < nm1.toNat + 1 →
        ReadsDone d c (readPulses s.regs.gain) xs s u → readSample d c (readPulses s.regs.gain) u = (none, t) →
        exec (.getWeight nm1) s = .next (answered 3 0 t))) ∧
    ((∃ (xs : List Int) (u : State), xs.length = nm1.toNat + 1 ∧
        ReadsDone d c (readPulses s.regs.gain) xs s u) ∨
      ∃ (xs : List Int) (u t : State), xs.length < nm1.toNat + 1 ∧
        ReadsDone d c (readPulses s.regs.gain) xs s u ∧
        readSample d c (readPulses s.regs.gain) u = (none, t))

/-- 42_calibration.md R105 and R108, 40_serial_reader.md R77: what TARE and GET_WEIGHT leave as it was. OFFSET, and only
by TARE with STATUS OK, CLK, the port trace and the inputs may change. -/
def Obligations.TareAndGetWeightFrame : Prop :=
  ∀ (s t : State) (nm1 : BitVec 16),
    (exec (.tare nm1) s = .next t →
      t.regs = { s.regs with offset := t.regs.offset, clk := t.regs.clk } ∧
      t.port = s.port ∧ t.commands = s.commands ∧ s.trace <+: t.trace ∧
      ∃ r : Response, t.responses = s.responses ++ [r] ∧ (r.status ≠ 0 → t.regs.offset = s.regs.offset)) ∧
    (exec (.getWeight nm1) s = .next t →
      t.regs = { s.regs with clk := t.regs.clk } ∧
      t.port = s.port ∧ t.commands = s.commands ∧ s.trace <+: t.trace)

/-! ## binary64 -/

/-- 42_calibration.md R100: the mean is the exact quotient rounded once, +0.0 for a zero quotient, and equals
fdiv(f64(sum), f64(n)) bit for bit. What a binary64 pattern denotes is general knowledge (log 10). -/
def Obligations.MeanIsTheQuotientRoundedOnce : Prop :=
  ∀ (sum : Int) (n : Nat), 1 ≤ n → n ≤ 65536 → |sum| ≤ 2 ^ 39 →
    IsRounded ((sum : ℚ) / (n : ℚ)) (meanOf sum n) ∧
    (sum = 0 → meanOf sum n = 0x0000000000000000) ∧
    f64Value (meanOf sum 1) = (sum : ℚ) ∧ f64Value (meanOf (n : Int) 1) = (n : ℚ) ∧
    fdiv (meanOf sum 1) (meanOf (n : Int) 1) = some (meanOf sum n)

/-- 42_calibration.md R105, corner cases: with n identical Samples V, the mean is V exactly (binary64 values by log 10). -/
def Obligations.MeanOfEqualSamplesIsExact : Prop :=
  ∀ (v : Int) (n : Nat), 1 ≤ n → n ≤ 65536 → -8388608 ≤ v → v ≤ 8388607 →
    f64IsFinite (meanOf (n * v) n) = true ∧ f64Value (meanOf (n * v) n) = (v : ℚ)

/-- 00_scope.md R16, 42_calibration.md R101: fsub on every pair of patterns. The IEEE rules are general knowledge
(93_implementation_defined.md I1; log 10). -/
def Obligations.SubtractionFollowsIeee : Prop :=
  ∀ a b : F64,
    (f64IsNaN a = true ∨ f64IsNaN b = true → fsub a b = none) ∧
    (f64IsInf a = true → f64IsInf b = true →
      fsub a b = if f64Sign a = f64Sign b then none else some (f64Inf (f64Sign a))) ∧
    (f64IsInf a = true → f64IsFinite b = true → fsub a b = some a) ∧
    (f64IsFinite a = true → f64IsInf b = true → fsub a b = some (f64Inf (!f64Sign b))) ∧
    (f64IsFinite a = true → f64IsFinite b = true →
      ∃ y : F64, fsub a b = some y ∧
        if f64Value a = f64Value b then
          y = if f64IsZero a = true ∧ f64Sign a = true ∧ f64Sign b = false then 0x8000000000000000 else 0
        else IsRounded (f64Value a - f64Value b) y)

/-- 00_scope.md R16, 42_calibration.md R101: fdiv on every pair of patterns. The IEEE rules are general knowledge
(93_implementation_defined.md I1; log 10). -/
def Obligations.DivisionFollowsIeee : Prop :=
  ∀ a b : F64,
    (f64IsNaN a = true ∨ f64IsNaN b = true → fdiv a b = none) ∧
    (f64IsInf a = true → f64IsInf b = true → fdiv a b = none) ∧
    (f64IsInf a = true → f64IsFinite b = true → fdiv a b = some (f64Inf (f64Sign a ^^ f64Sign b))) ∧
    (f64IsFinite a = true → f64IsInf b = true → fdiv a b = some (f64Zero (f64Sign a ^^ f64Sign b))) ∧
    (f64IsZero a = true → f64IsZero b = true → fdiv a b = none) ∧
    (f64IsFinite a = true → f64IsZero a = false → f64IsZero b = true →
      fdiv a b = some (f64Inf (f64Sign a ^^ f64Sign b))) ∧
    (f64IsZero a = true → f64IsFinite b = true → f64IsZero b = false →
      fdiv a b = some (f64Zero (f64Sign a ^^ f64Sign b))) ∧
    (f64IsFinite a = true → f64IsZero a = false → f64IsFinite b = true → f64IsZero b = false →
      ∃ y : F64, fdiv a b = some y ∧ IsRounded (f64Value a / f64Value b) y)

/-- 42_calibration.md R102: with a finite OFFSET and a REF_UNIT that is no zero, the weight is a NaN exactly when
REF_UNIT is a NaN (IEEE rules by log 10). -/
def Obligations.WeightIsNanOnlyForANanUnit : Prop :=
  ∀ (sum : Int) (n : Nat) (offset refUnit : F64), 1 ≤ n → n ≤ 65536 → |sum| ≤ 2 ^ 39 →
    f64IsFinite offset = true → |f64Value offset| ≤ 2 ^ 23 → f64IsZero refUnit = false →
    (weightOf (meanOf sum n) offset refUnit = none ↔ f64IsNaN refUnit = true)

/-- 70_reset_and_hazards.md R159: with the reset calibration a finite mean comes back as it is, bit for bit (IEEE rules
by log 10). -/
def Obligations.ResetCalibrationReturnsTheMean : Prop :=
  ∀ m : F64, f64IsFinite m = true → weightOf m Regs.reset.offset Regs.reset.refUnit = some m

/-! ## Power -/

/-- 43_power.md R113: POWER_DOWN in READY, in either power sub-state. -/
def Obligations.PowerDownHoldsTheClockHigh : Prop :=
  ∀ (s : State) (c : PinId), s.regs.life = .ready → s.regs.clockPin = some c →
    exec .powerDown s = .next (answered 0 0
      { s with
        regs := { s.regs with pwr := .asleep, clk := .driven true }
        trace := s.trace ++ [.write c true, .hold c .pdHold] })

/-- 43_power.md R114: POWER_UP in READY, in either power sub-state. -/
def Obligations.PowerUpDrivesTheClockLow : Prop :=
  ∀ (s : State) (c : PinId), s.regs.life = .ready → s.regs.clockPin = some c →
    exec .powerUp s = .next (answered 0 0
      { s with
        regs := { s.regs with pwr := .awake, clk := .driven false }
        trace := s.trace ++ [.write c false] })

/-- 60_exceptions.md R153: POWER_DOWN is the only way into ASLEEP; POWER_UP and CLOSE are the only ways out. -/
def Obligations.OnlyPowerCommandsChangePwr : Prop :=
  ∀ (s t : State) (c : Command) (rest : List Command), s.Inv → s.commands = c :: rest → step s = .next t →
    (s.regs.pwr = .awake → t.regs.pwr = .asleep → decode c = some .powerDown) ∧
    (s.regs.pwr = .asleep → t.regs.pwr = .awake →
      (decode c = some .powerUp ∨ decode c = some .close) ∧
      ∃ (pin : PinId) (es : List PortEvent), t.trace = s.trace ++ .write pin false :: es)

/-- 43_power.md R112 and R111: the power-sequencing timer runs only inside POWER_DOWN, and its hold is at least T_SLEEP
and follows the clock-high write. -/
def Obligations.HoldOnlyInsidePowerDown : Prop :=
  (∀ (s t : State) (c : Command) (rest : List Command), s.commands = c :: rest → step s = .next t →
    ∃ es : List PortEvent, t.trace = s.trace ++ es ∧
      ∀ (pin : PinId) (time : HoldTime), PortEvent.hold pin time ∈ es →
        decode c = some .powerDown ∧ es = [.write pin true, .hold pin time]) ∧
  Config.tSleep ≤ Config.tPdHold

/-! ## The whole machine -/

/-- 10_state.md R20, the "written by" column: which commands may change which register. -/
def Obligations.OnlyTheNamedCommandsWrite : Prop :=
  ∀ (s t : State) (i : Instr), exec i s = .next t →
    (t.regs.life ≠ s.regs.life → i.opcode = .configure ∨ i.opcode = .close) ∧
    (t.regs.pwr ≠ s.regs.pwr →
      i.opcode = .configure ∨ i.opcode = .powerDown ∨ i.opcode = .powerUp ∨ i.opcode = .close) ∧
    (t.regs.byteOrder ≠ s.regs.byteOrder → i.opcode = .setReadingFormat) ∧
    (t.regs.bitOrder ≠ s.regs.bitOrder → i.opcode = .setReadingFormat) ∧
    (t.regs.gain ≠ s.regs.gain → i.opcode = .setGainChannel) ∧
    (t.regs.offset ≠ s.regs.offset → i.opcode = .tare) ∧
    (t.regs.refUnit ≠ s.regs.refUnit → i.opcode = .setReferenceUnit) ∧
    (t.regs.dataPin ≠ s.regs.dataPin → i.opcode = .configure) ∧
    (t.regs.clockPin ≠ s.regs.clockPin → i.opcode = .configure) ∧
    (t.regs.chipId ≠ s.regs.chipId → i.opcode = .configure) ∧
    (t.regs.portOpen ≠ s.regs.portOpen → i.opcode = .configure ∨ i.opcode = .close) ∧
    (t.trace = s.trace → t.regs.clk = s.regs.clk)

/-- 44_lifecycle.md R128: a command that ends with a status other than OK leaves the clock as it was or at 0, and only a
successful POWER_DOWN brings it to 1. -/
def Obligations.FailedCommandsLeaveTheClockLow : Prop :=
  ∀ (s t : State) (c : Command) (rest : List Command) (r : Response), s.Inv → s.commands = c :: rest →
    step s = .next t → t.responses = s.responses ++ [r] →
    (r.status ≠ 0 → t.regs.clk = s.regs.clk ∨ t.regs.clk = .driven false) ∧
    (t.regs.clk = .driven true → s.regs.clk ≠ .driven true → decode c = some .powerDown ∧ r.status = 0)

/-- 10_state.md R22, R31 to R34: every step keeps the invariant, from every state that has it. -/
def Obligations.StepKeepsTheInvariant : Prop :=
  ∀ s t : State, s.Inv → step s = .next t → t.Inv

/-- 20_memory.md R39 to R46, R54: from every state whose trace keeps the port's contract, the events of a step keep it,
and the port is left as the state says. -/
def Obligations.StepKeepsThePortContract : Prop :=
  ∀ s t : State, s.Inv → s.SafeTrace → step s = .next t → t.SafeTrace

/-- 10_state.md R28: every step keeps OFFSET finite and within the range of a Sample (binary64 values by log 10). -/
def Obligations.StepKeepsOffsetBounded : Prop :=
  ∀ s t : State, s.OffsetBounded → step s = .next t → t.OffsetBounded
end

