-- ==== Sys2Proof/Laws/Binary64.lean ====
section
/-!
SUPPORT. What the binary64 functions of Machine/Binary64.lean compute: `roundMagnitude` with a sign is the exact value
rounded to nearest, ties to even, and gives a representable value back as it is.
-/

namespace Sys2Proof.Machine

/-- The units of 2^-1074 in a pattern without its sign. -/
def magnitudeUnits (m : Nat) : Nat :=
  if m / 2 ^ 52 = 0 then m % 2 ^ 52 else (2 ^ 52 + m % 2 ^ 52) * 2 ^ (m / 2 ^ 52 - 1)

theorem magnitudeUnits_add (k s : Nat) (hs : s ≤ 2 ^ 53) (hk : k = 0 ∨ 2 ^ 52 ≤ s) :
    magnitudeUnits (k * 2 ^ 52 + s) = s * 2 ^ k := by
  rcases Nat.lt_or_ge s (2 ^ 52) with small | large
  · obtain rfl : k = 0 := by omega
    rw [Nat.zero_mul, Nat.zero_add, magnitudeUnits, Nat.div_eq_of_lt small, if_pos rfl, Nat.mod_eq_of_lt small, pow_zero,
      Nat.mul_one]
  · rcases Nat.lt_or_ge s (2 ^ 53) with below | top
    · have hdiv : (k * 2 ^ 52 + s) / 2 ^ 52 = k + 1 := by omega
      have hmod : (k * 2 ^ 52 + s) % 2 ^ 52 = s - 2 ^ 52 := by omega
      rw [magnitudeUnits, hdiv, hmod, if_neg (Nat.succ_ne_zero k), Nat.add_sub_cancel, Nat.add_sub_cancel' large]
    · obtain rfl : s = 2 ^ 53 := by omega
      have hdiv : (k * 2 ^ 52 + 2 ^ 53) / 2 ^ 52 = k + 2 := by omega
      have hmod : (k * 2 ^ 52 + 2 ^ 53) % 2 ^ 52 = 0 := by omega
      rw [magnitudeUnits, hdiv, hmod, if_neg (Nat.succ_ne_zero _), show k + 2 - 1 = k + 1 from rfl, pow_succ]
      ring

/-- Every magnitude is an exponent step and a significand. -/
theorem exists_step (m : Nat) : ∃ k s, m = k * 2 ^ 52 + s ∧ s < 2 ^ 53 ∧ (k = 0 ∨ 2 ^ 52 ≤ s) := by
  rcases Nat.lt_or_ge m (2 ^ 52) with small | large
  · exact ⟨0, m, by omega, by omega, .inl rfl⟩
  · exact ⟨m / 2 ^ 52 - 1, m - (m / 2 ^ 52 - 1) * 2 ^ 52, by omega, by omega, by omega⟩

theorem magnitudeUnits_strictMono : StrictMono magnitudeUnits := by
  refine strictMono_nat_of_lt_succ fun m => ?_
  obtain ⟨k, s, rfl, hs, hk⟩ := exists_step m
  rw [Nat.add_assoc, magnitudeUnits_add k s hs.le hk, magnitudeUnits_add k (s + 1) hs (by omega)]
  exact Nat.mul_lt_mul_of_pos_right (Nat.lt_succ_self s) (by positivity)

/-- The significand before rounding has at most 53 bits, and 53 where bits are dropped. -/
theorem significand_bounds (num den : Nat) :
    num / (den * 2 ^ droppedBits num den) < 2 ^ 53 ∧
      (droppedBits num den = 0 ∨ 2 ^ 52 ≤ num / (den * 2 ^ droppedBits num den)) := by
  rw [← Nat.div_div_eq_div_mul]
  unfold droppedBits
  generalize num / den = q
  by_cases hq : q = 0
  · subst hq; simp
  have lo := Nat.log2_self_le hq
  have hi := Nat.lt_log2_self (n := q)
  rcases Nat.lt_or_ge q.log2 53 with h | h
  · have hk : q.log2 - 52 = 0 := by omega
    rw [hk]
    refine ⟨?_, .inl rfl⟩
    rw [pow_zero, Nat.div_one]
    exact lt_of_lt_of_le hi (Nat.pow_le_pow_right (by norm_num) (by omega))
  · obtain ⟨j, hj⟩ : ∃ j, q.log2 = j + 52 := ⟨q.log2 - 52, by omega⟩
    rw [hj] at lo hi ⊢
    rw [Nat.add_sub_cancel]
    refine ⟨?_, .inr ?_⟩
    · rw [Nat.div_lt_iff_lt_mul (by positivity), ← pow_add]
      exact lt_of_lt_of_eq hi (by ring_nf)
    · rw [Nat.le_div_iff_mul_le (by positivity), ← pow_add]
      exact le_of_eq_of_le (by ring_nf) lo

theorem roundNearestEven_cases (num den : Nat) :
    (roundNearestEven num den = num / den ∧ 2 * (num % den) ≤ den ∧
        (2 * (num % den) = den → num / den % 2 = 0)) ∨
      (roundNearestEven num den = num / den + 1 ∧ den ≤ 2 * (num % den) ∧
        (2 * (num % den) = den → (num / den + 1) % 2 = 0)) := by
  simp only [roundNearestEven]
  split
  · omega
  · split
    · omega
    · rcases Nat.mod_two_eq_zero_or_one (num / den) with h | h <;> rw [h] <;> omega

/-- The magnitude before overflow is cut off. -/
def nearestMagnitude (num den : Nat) : Nat :=
  droppedBits num den * 2 ^ 52 + roundNearestEven num (den * 2 ^ droppedBits num den)

theorem roundMagnitude_eq (num den : Nat) : roundMagnitude num den = min (nearestMagnitude num den) (2047 * 2 ^ 52) :=
  rfl

/-- No magnitude is nearer to num / den units, and a tie goes to an even pattern. -/
theorem nearestMagnitude_spec (num den : Nat) (hd : 0 < den) (z : Nat) :
    |(magnitudeUnits (nearestMagnitude num den) : ℚ) - num / den| ≤ |(magnitudeUnits z : ℚ) - num / den| ∧
      (|(magnitudeUnits (nearestMagnitude num den) : ℚ) - num / den| = |(magnitudeUnits z : ℚ) - num / den| →
        z ≠ nearestMagnitude num den → nearestMagnitude num den % 2 = 0) := by
  obtain ⟨top, bottom⟩ := significand_bounds num den
  have cases := roundNearestEven_cases num (den * 2 ^ droppedBits num den)
  unfold nearestMagnitude
  generalize droppedBits num den = k at *
  generalize hD : den * 2 ^ k = D at *
  have hDpos : 0 < D := by rw [← hD]; positivity
  have split := Nat.div_add_mod num D
  have rem := Nat.mod_lt num hDpos
  generalize num / D = q at *
  generalize num % D = r at *
  have lower : (magnitudeUnits (k * 2 ^ 52 + q) : ℚ) = q * 2 ^ k := by
    rw [magnitudeUnits_add k q top.le bottom]; push_cast; ring
  have upper : (magnitudeUnits (k * 2 ^ 52 + (q + 1)) : ℚ) = (q + 1) * 2 ^ k := by
    rw [magnitudeUnits_add k (q + 1) top (by omega)]; push_cast; ring
  have value : (num : ℚ) / den = q * 2 ^ k + r / D * 2 ^ k := by
    have hdq : (den : ℚ) ≠ 0 := by positivity
    have hkq : (2 : ℚ) ^ k ≠ 0 := by positivity
    rw [← split, ← hD]
    push_cast
    field_simp
  have hkpos : (0 : ℚ) < 2 ^ k := by positivity
  have frac : (0 : ℚ) ≤ r / D ∧ (r : ℚ) / D < 1 := by
    constructor
    · positivity
    · rw [div_lt_one (by exact_mod_cast hDpos)]; exact_mod_cast rem
  have hz : (magnitudeUnits z : ℚ) ≤ q * 2 ^ k ∨ ((q : ℚ) + 1) * 2 ^ k ≤ magnitudeUnits z := by
    rcases Nat.lt_or_ge z (k * 2 ^ 52 + (q + 1)) with h | h
    · left; rw [← lower]; exact_mod_cast magnitudeUnits_strictMono.monotone (show z ≤ k * 2 ^ 52 + q by omega)
    · right; rw [← upper]; exact_mod_cast magnitudeUnits_strictMono.monotone h
  have hzne : ∀ m, z ≠ m → (magnitudeUnits z : ℚ) ≠ magnitudeUnits m := by
    intro m hm h
    exact hm (magnitudeUnits_strictMono.injective (by exact_mod_cast h))
  rw [value]
  generalize (2 : ℚ) ^ k = w at *
  have par : (k * 2 ^ 52 + q) % 2 = q % 2 := by omega
  have par' : (k * 2 ^ 52 + (q + 1)) % 2 = (q + 1) % 2 := by omega
  have hDq : (0 : ℚ) < D := by exact_mod_cast hDpos
  rcases cases with ⟨hr, half, even⟩ | ⟨hr, half, even⟩ <;> rw [hr]
  · have halfq : (r : ℚ) / D ≤ 1 / 2 := by
      rw [div_le_div_iff₀ hDq (by norm_num)]; exact_mod_cast (by omega : r * 2 ≤ 1 * D)
    have tie : (r : ℚ) / D = 1 / 2 → 2 * r = D := by
      intro h; rw [div_eq_div_iff hDq.ne' (by norm_num)] at h
      have : r * 2 = 1 * D := by exact_mod_cast h
      omega
    have hne := hzne (k * 2 ^ 52 + q)
    rw [lower] at *
    rw [par]
    generalize (r : ℚ) / D = f at *
    generalize (magnitudeUnits z : ℚ) = u at *
    have e1 : |(q : ℚ) * w - (q * w + f * w)| = f * w := by
      rw [show (q : ℚ) * w - (q * w + f * w) = -(f * w) by ring, abs_neg, abs_of_nonneg (by nlinarith)]
    rw [e1]
    rcases hz with h | h
    · have e2 : |u - (q * w + f * w)| = q * w + f * w - u := by
        rw [abs_sub_comm, abs_of_nonneg (by nlinarith)]
      rw [e2]
      refine ⟨by linarith, fun h1 h2 => absurd (by linarith) (hne h2)⟩
    · have e2 : |u - (q * w + f * w)| = u - (q * w + f * w) := by
        rw [abs_of_nonneg (by nlinarith)]
      rw [e2]
      refine ⟨by nlinarith, fun h1 h2 => even (tie ?_)⟩
      nlinarith
  · have halfq : 1 / 2 ≤ (r : ℚ) / D := by
      rw [div_le_div_iff₀ (by norm_num) hDq]; exact_mod_cast (by omega : 1 * D ≤ r * 2)
    have tie : (r : ℚ) / D = 1 / 2 → 2 * r = D := by
      intro h; rw [div_eq_div_iff hDq.ne' (by norm_num)] at h
      have : r * 2 = 1 * D := by exact_mod_cast h
      omega
    have hne := hzne (k * 2 ^ 52 + (q + 1))
    rw [upper] at *
    rw [par']
    generalize (r : ℚ) / D = f at *
    generalize (magnitudeUnits z : ℚ) = u at *
    have e1 : |((q : ℚ) + 1) * w - (q * w + f * w)| = (1 - f) * w := by
      rw [abs_of_nonneg (by nlinarith)]; ring
    rw [e1]
    rcases hz with h | h
    · have e2 : |u - (q * w + f * w)| = q * w + f * w - u := by
        rw [abs_sub_comm, abs_of_nonneg (by nlinarith)]
      rw [e2]
      refine ⟨by nlinarith, fun h1 h2 => even (tie ?_)⟩
      nlinarith
    · have e2 : |u - (q * w + f * w)| = u - (q * w + f * w) := by
        rw [abs_of_nonneg (by nlinarith)]
      rw [e2]
      refine ⟨by linarith, fun h1 h2 => absurd (by linarith) (hne h2)⟩

/-! ## Patterns -/

theorem f64Sign_eq (x : F64) : f64Sign x = decide (2 ^ 63 ≤ x.toNat) := by
  have := BitVec.msb_eq_decide x
  simpa [f64Sign, BitVec.msb_eq_getLsbD_last] using this

theorem f64Exp_eq (x : F64) : f64Exp x = x.toNat % 2 ^ 63 / 2 ^ 52 := by
  simp only [f64Exp, BitVec.extractLsb'_toNat, Nat.shiftRight_eq_div_pow]
  omega

theorem f64Frac_eq (x : F64) : f64Frac x = x.toNat % 2 ^ 63 % 2 ^ 52 := by
  simp only [f64Frac, BitVec.extractLsb'_toNat, Nat.shiftRight_eq_div_pow]
  omega

theorem f64IsFinite_iff (x : F64) : f64IsFinite x = true ↔ x.toNat % 2 ^ 63 < 2047 * 2 ^ 52 := by
  simp only [f64IsFinite, f64Exp_eq, bne_iff_ne]
  omega

theorem cast_of_eq_pow (n m : Nat) (h : m = 2 ^ n) : (m : ℚ) = 2 ^ n := by
  rw [h, Nat.cast_pow, Nat.cast_two]

theorem unitsPerOne_eq : (unitsPerOne : ℚ) = 2 ^ 1074 :=
  cast_of_eq_pow 1074 unitsPerOne (by
    unfold unitsPerOne
    rfl)

theorem unitsPerOne_pos : 0 < unitsPerOne := by
  unfold unitsPerOne
  exact Nat.two_pow_pos 1074

theorem f64Value_eq (x : F64) :
    f64Value x = (if f64Sign x then -1 else 1) * ((magnitudeUnits (x.toNat % 2 ^ 63) : ℚ) / unitsPerOne) := by
  rw [unitsPerOne_eq]
  simp only [f64Value, f64Exp_eq, f64Frac_eq, magnitudeUnits]
  congr 1
  split
  · rw [zpow_neg]; norm_cast
  · rename_i h
    generalize x.toNat % 2 ^ 63 = m at *
    obtain ⟨j, hj⟩ : ∃ j, m / 2 ^ 52 = j + 1 := ⟨m / 2 ^ 52 - 1, by omega⟩
    rw [hj, Nat.add_sub_cancel]
    generalize m % 2 ^ 52 = f
    rw [show ((j + 1 : ℕ) : ℤ) - 1023 = (j : ℤ) + 52 - 1074 by push_cast; ring, zpow_sub₀ (by norm_num),
      zpow_add₀ (by norm_num)]
    norm_cast
    push_cast
    field_simp

theorem toNat_f64Pack (neg : Bool) (m : Nat) (hm : m < 2 ^ 63) :
    (f64Pack neg m).toNat = (if neg then 2 ^ 63 else 0) + m := by
  simp only [f64Pack, BitVec.toNat_append, BitVec.toNat_ofBool, BitVec.toNat_ofNat, Nat.mod_eq_of_lt hm]
  rw [← Nat.shiftLeft_add_eq_or_of_lt hm]
  cases neg <;> simp

theorem f64Sign_pack (neg : Bool) (m : Nat) (hm : m < 2 ^ 63) : f64Sign (f64Pack neg m) = neg := by
  rw [f64Sign_eq, toNat_f64Pack neg m hm]
  cases neg
  · simpa using hm
  · simp

theorem magnitude_pack (neg : Bool) (m : Nat) (hm : m < 2 ^ 63) : (f64Pack neg m).toNat % 2 ^ 63 = m := by
  rw [toNat_f64Pack neg m hm]
  cases neg <;> simp <;> omega

/-! ## Overflow -/

theorem magnitudeUnits_infinity : (magnitudeUnits (2047 * 2 ^ 52) : ℚ) = 2 ^ 2098 := by
  have := magnitudeUnits_add 2045 (2 ^ 53) (le_refl _) (.inr (by norm_num))
  rw [show 2045 * 2 ^ 52 + 2 ^ 53 = 2047 * 2 ^ 52 by norm_num] at this
  rw [this, Nat.cast_mul, Nat.cast_pow, Nat.cast_pow, Nat.cast_two, ← pow_add]

theorem magnitudeUnits_largest : (magnitudeUnits (2047 * 2 ^ 52 - 1) : ℚ) = 2 ^ 2098 - 2 ^ 2045 := by
  have := magnitudeUnits_add 2045 (2 ^ 53 - 1) (by norm_num) (.inr (by norm_num))
  rw [show 2045 * 2 ^ 52 + (2 ^ 53 - 1) = 2047 * 2 ^ 52 - 1 by norm_num] at this
  rw [this, Nat.cast_mul, Nat.cast_sub (by norm_num), Nat.cast_pow, Nat.cast_pow, Nat.cast_two, Nat.cast_one, sub_mul,
    one_mul, ← pow_add]

/-- The rounded magnitude is finite exactly below half a unit past the largest finite value. -/
theorem nearestMagnitude_lt_infinity (num den : Nat) (hd : 0 < den) :
    nearestMagnitude num den < 2047 * 2 ^ 52 ↔ (num : ℚ) / den < 2 ^ 2098 - 2 ^ 2044 := by
  have h45 : (2 : ℚ) ^ 2045 = 2 * 2 ^ 2044 := by rw [← pow_succ']
  have hpos : (0 : ℚ) < 2 ^ 2044 := by positivity
  have inf := (nearestMagnitude_spec num den hd (2047 * 2 ^ 52))
  have big := (nearestMagnitude_spec num den hd (2047 * 2 ^ 52 - 1)).1
  rw [magnitudeUnits_infinity] at inf
  rw [magnitudeUnits_largest] at big
  have mono := fun a b => magnitudeUnits_strictMono.le_iff_le (a := a) (b := b)
  have atInf : 2047 * 2 ^ 52 ≤ nearestMagnitude num den →
      (2 : ℚ) ^ 2098 ≤ magnitudeUnits (nearestMagnitude num den) := by
    intro h
    rw [← magnitudeUnits_infinity]
    exact_mod_cast (mono _ _).mpr h
  have atMax : nearestMagnitude num den < 2047 * 2 ^ 52 →
      (magnitudeUnits (nearestMagnitude num den) : ℚ) ≤ 2 ^ 2098 - 2 ^ 2045 := by
    intro h
    rw [← magnitudeUnits_largest]
    exact_mod_cast (mono _ _).mpr (by omega)
  have onlyMax : (magnitudeUnits (nearestMagnitude num den) : ℚ) = 2 ^ 2098 - 2 ^ 2045 →
      nearestMagnitude num den % 2 = 1 := by
    intro h
    rw [← magnitudeUnits_largest] at h
    have := magnitudeUnits_strictMono.injective (Nat.cast_injective (R := ℚ) h)
    omega
  rw [h45] at *
  generalize (num : ℚ) / den = q at *
  generalize (2 : ℚ) ^ 2098 = top at *
  generalize (2 : ℚ) ^ 2044 = half at *
  generalize (magnitudeUnits (nearestMagnitude num den) : ℚ) = u at *
  generalize nearestMagnitude num den = m at *
  clear mono
  constructor
  · intro hm
    by_contra hq
    have h1 := atMax hm
    have hq' : top - half ≤ q := not_lt.mp hq
    rw [abs_sub_comm u, abs_of_nonneg (by linarith)] at inf
    rcases le_total q top with h | h
    · rw [abs_of_nonneg (by linarith)] at inf
      have even := inf.2 (le_antisymm inf.1 (by linarith)) (by omega)
      have odd := onlyMax (by linarith [inf.1])
      omega
    · rw [abs_sub_comm, abs_of_nonneg (by linarith)] at inf
      linarith [inf.1]
  · intro hq
    by_contra hm
    have h1 := atInf (by omega)
    rw [abs_of_nonneg (by linarith)] at big
    rcases le_total q (top - 2 * half) with h | h
    · rw [abs_of_nonneg (by linarith)] at big
      linarith
    · rw [abs_sub_comm, abs_of_nonneg (by linarith)] at big
      linarith

/-- `roundMagnitude` with the sign of `q` is `q` rounded to nearest, ties to even. -/
theorem isRounded_pack (q : ℚ) (num den : Nat) (hd : 0 < den) (hq : |q| * unitsPerOne = (num : ℚ) / den) :
    IsRounded q (f64Pack (decide (q < 0)) (roundMagnitude num den)) := by
  have bound : roundMagnitude num den < 2 ^ 63 := by
    rw [roundMagnitude_eq]; exact lt_of_le_of_lt (min_le_right _ _) (by norm_num)
  have hp : (0 : ℚ) < unitsPerOne := by exact_mod_cast unitsPerOne_pos
  refine ⟨f64Sign_pack _ _ bound, ?_⟩
  have limit : |q| < 2 ^ 1024 - 2 ^ 970 ↔ nearestMagnitude num den < 2047 * 2 ^ 52 := by
    rw [nearestMagnitude_lt_infinity num den hd, ← hq, ← mul_lt_mul_iff_left₀ hp, sub_mul, unitsPerOne_eq, ← pow_add,
      ← pow_add]
  split
  · rename_i small
    have fin := limit.mp small
    have eq : roundMagnitude num den = nearestMagnitude num den := by
      rw [roundMagnitude_eq, min_eq_left fin.le]
    rw [eq] at bound ⊢
    refine ⟨by rw [f64IsFinite_iff, magnitude_pack _ _ bound]; exact fin, fun z hz => ?_⟩
    have spec := nearestMagnitude_spec num den hd (z.toNat % 2 ^ 63)
    have spec0 := (nearestMagnitude_spec num den hd 0).1
    rw [f64Value_eq, f64Value_eq z, f64Sign_pack _ _ bound, magnitude_pack _ _ bound, f64Frac_eq, magnitude_pack _ _ bound,
      show nearestMagnitude num den % 2 ^ 52 % 2 = nearestMagnitude num den % 2 by omega]
    have inj : (magnitudeUnits (z.toNat % 2 ^ 63) : ℚ) ≠ magnitudeUnits (nearestMagnitude num den) →
        z.toNat % 2 ^ 63 ≠ nearestMagnitude num den := fun h h' => h (by rw [h'])
    have zero : (magnitudeUnits 0 : ℚ) = 0 := by norm_num [magnitudeUnits]
    rw [zero, ← hq] at spec0
    rw [← hq] at spec
    have hu : (0 : ℚ) ≤ magnitudeUnits (z.toNat % 2 ^ 63) := Nat.cast_nonneg _
    have hv : (0 : ℚ) ≤ magnitudeUnits (nearestMagnitude num den) := Nat.cast_nonneg _
    generalize (magnitudeUnits (z.toNat % 2 ^ 63) : ℚ) = u at *
    generalize (magnitudeUnits (nearestMagnitude num den) : ℚ) = v at *
    generalize z.toNat % 2 ^ 63 = zm at *
    generalize nearestMagnitude num den = ym at *
    clear limit small fin eq bound hq hz
    generalize (unitsPerOne : ℚ) = p at *
    have same : ∀ a : ℚ, |a / p - abs q| = |a - abs q * p| / p := by
      intro a
      rw [← abs_of_pos hp, ← abs_div, abs_of_pos hp, sub_div, mul_div_cancel_right₀ _ hp.ne']
    have nonneg : 0 ≤ abs q * p := by positivity
    have key : ∀ b : Bool,
        |v / p - abs q| ≤ |(if b then -1 else 1) * (u / p) - abs q| ∧
          (|v / p - abs q| = |(if b then -1 else 1) * (u / p) - abs q| →
            (if b then -1 else 1) * (u / p) ≠ v / p → ym % 2 = 0) := by
      intro b
      have flip : (if b then -1 else 1) * (u / p) = ((if b then -1 else 1) * u) / p := by ring
      rw [flip, same, same, div_le_div_iff_of_pos_right hp, div_left_inj' hp.ne', Ne, div_left_inj' hp.ne']
      generalize abs q * p = w at *
      rw [zero_sub, abs_neg, abs_of_nonneg nonneg] at spec0
      cases b
      · simp only [Bool.false_eq_true, if_false, one_mul]
        exact ⟨spec.1, fun h1 h2 => spec.2 h1 (inj h2)⟩
      · simp only [if_true, neg_one_mul]
        have e : |-u - w| = u + w := by rw [← abs_neg, abs_of_nonneg (by linarith)]; ring
        rw [e]
        refine ⟨by linarith, fun h1 h2 => ?_⟩
        have u0 : u = 0 := by linarith
        subst u0
        rw [zero_sub, abs_neg, abs_of_nonneg nonneg] at spec
        exact spec.2 (by linarith) (inj (by simpa using h2))
    rcases lt_or_ge q 0 with neg | pos
    · have hk := key (!f64Sign z)
      rw [abs_of_neg neg] at hk
      have e1 : |(if decide (q < 0) then -1 else 1) * (v / p) - q| = |v / p - -q| := by
        rw [decide_eq_true neg, if_pos rfl, ← abs_neg]; ring_nf
      have e2 : |(if f64Sign z then -1 else 1) * (u / p) - q| = |(if !f64Sign z then -1 else 1) * (u / p) - -q| := by
        rw [← abs_neg]; cases f64Sign z <;> simp <;> ring_nf
      rw [e1, e2]
      refine ⟨hk.1, fun h1 h2 => hk.2 h1 fun h3 => h2 ?_⟩
      rw [decide_eq_true neg, if_pos rfl, ← h3]
      cases f64Sign z <;> simp
    · have hk := key (f64Sign z)
      rw [abs_of_nonneg pos] at hk
      simpa [not_lt.mpr pos] using hk
  · rename_i large
    have inf : roundMagnitude num den = 2047 * 2 ^ 52 := by
      rw [roundMagnitude_eq, min_eq_right (by rw [← not_lt]; exact fun h => large (limit.mpr h))]
    rw [f64IsInf, f64Exp_eq, f64Frac_eq, magnitude_pack _ _ bound, inf]
    decide

theorem roundMagnitude_lt (num den : Nat) : roundMagnitude num den < 2 ^ 63 := by
  rw [roundMagnitude_eq]
  exact lt_of_le_of_lt (min_le_right _ _) (by norm_num)

/-- Rounding depends on the quotient alone. -/
theorem roundMagnitude_scale (num den c : Nat) (hc : 0 < c) :
    roundMagnitude (num * c) (den * c) = roundMagnitude num den := by
  have nearest : ∀ x y, roundNearestEven (x * c) (y * c) = roundNearestEven x y := by
    intro x y
    have lo : 2 * (x % y * c) < y * c ↔ 2 * (x % y) < y := by
      rw [← mul_assoc]
      exact Nat.mul_lt_mul_right hc
    have hi : y * c < 2 * (x % y * c) ↔ y < 2 * (x % y) := by
      rw [← mul_assoc]
      exact Nat.mul_lt_mul_right hc
    simp only [roundNearestEven, Nat.mul_div_mul_right _ _ hc, Nat.mul_mod_mul_right, lo, hi]
  have dropped : droppedBits (num * c) (den * c) = droppedBits num den := by
    simp only [droppedBits, Nat.mul_div_mul_right _ _ hc]
  simp only [roundMagnitude, dropped]
  rw [mul_right_comm den c, nearest]

/-! ## Values in units -/

theorem f64Units_eq (x : F64) : f64Units x = magnitudeUnits (x.toNat % 2 ^ 63) := by
  simp only [f64Units, f64Exp_eq, f64Frac_eq, magnitudeUnits]

theorem f64Int_eq (x : F64) : (f64Int x : ℚ) = f64Value x * unitsPerOne := by
  have nonzero : (unitsPerOne : ℚ) ≠ 0 := by exact_mod_cast unitsPerOne_pos.ne'
  rw [f64Value_eq, f64Int, f64Units_eq, mul_assoc, div_mul_cancel₀ _ nonzero]
  cases f64Sign x <;> simp

theorem f64IsZero_iff (x : F64) : f64IsZero x = true ↔ f64Units x = 0 := by
  simp only [f64IsZero, f64Units, Bool.and_eq_true, beq_iff_eq]
  constructor
  · rintro ⟨hexp, hfrac⟩
    simp [hexp, hfrac]
  · intro h
    split at h
    · exact ⟨‹_›, h⟩
    · have : 0 < (2 ^ 52 + f64Frac x) * 2 ^ (f64Exp x - 1) := by positivity
      omega

theorem f64IsInf_eq (x : F64) (h : f64IsInf x = true) : x = f64Inf (f64Sign x) := by
  simp only [f64IsInf, f64Exp_eq, f64Frac_eq, Bool.and_eq_true, beq_iff_eq] at h
  apply BitVec.eq_of_toNat_eq
  rw [f64Inf, toNat_f64Pack _ _ (by norm_num), f64Sign_eq]
  simp only [decide_eq_true_eq]
  have := x.isLt
  split <;> omega

/-! ## Exact results -/

/-- A quotient that is a finite magnitude rounds to itself. -/
theorem roundMagnitude_exact (num den m : Nat) (hd : 0 < den) (hm : m < 2047 * 2 ^ 52)
    (h : num = den * magnitudeUnits m) : roundMagnitude num den = m := by
  have hq : (num : ℚ) / den = magnitudeUnits m := by
    have : (den : ℚ) ≠ 0 := by positivity
    rw [h, Nat.cast_mul, mul_div_cancel_left₀ _ this]
  have spec := (nearestMagnitude_spec num den hd m).1
  rw [hq, sub_self, abs_zero] at spec
  have eq := sub_eq_zero.mp (abs_nonpos_iff.mp spec)
  have := magnitudeUnits_strictMono.injective (Nat.cast_injective (R := ℚ) eq)
  rw [roundMagnitude_eq, this, min_eq_left hm.le]

/-- A natural number of at most 53 bits is a finite magnitude. -/
theorem exists_magnitude (n : Nat) (hn : n < 2 ^ 53) :
    ∃ m, m < 2047 * 2 ^ 52 ∧ magnitudeUnits m = n * unitsPerOne := by
  rcases Nat.eq_zero_or_pos n with rfl | pos
  · exact ⟨0, by norm_num, by simp [magnitudeUnits]⟩
  · have lo := Nat.log2_self_le pos.ne'
    have hi := Nat.lt_log2_self (n := n)
    have top : n.log2 < 53 := by
      rw [← Nat.pow_lt_pow_iff_right (a := 2) (by norm_num)]
      exact lt_of_le_of_lt lo hn
    obtain ⟨j, hj⟩ : ∃ j, 52 = n.log2 + j := ⟨52 - n.log2, by omega⟩
    have slo : 2 ^ 52 ≤ n * 2 ^ j := by
      rw [hj, pow_add]
      exact Nat.mul_le_mul_right _ lo
    have shi : n * 2 ^ j < 2 ^ 53 := by
      rw [show 53 = n.log2 + 1 + j by omega, pow_add]
      exact Nat.mul_lt_mul_of_pos_right hi (by positivity)
    refine ⟨(1022 + n.log2) * 2 ^ 52 + n * 2 ^ j, by omega, ?_⟩
    rw [magnitudeUnits_add _ _ shi.le (.inr slo), Nat.mul_assoc, ← pow_add]
    unfold unitsPerOne
    exact congrArg (fun e => n * 2 ^ e) (by omega)

end Sys2Proof.Machine
end

