-- ==== Sys2Proof/Laws/State.lean ====
section
/-!
SUPPORT. One lemma per field of the state per update of Machine/Ops.lean, so that no later proof unfolds an update.
-/

namespace Sys2Proof.Machine

@[simp] theorem emit_regs (e : PortEvent) (s : State) : (emit e s).regs = s.regs := rfl
@[simp] theorem emit_port (e : PortEvent) (s : State) : (emit e s).port = s.port := rfl
@[simp] theorem emit_trace (e : PortEvent) (s : State) : (emit e s).trace = s.trace ++ [e] := rfl
@[simp] theorem emit_commands (e : PortEvent) (s : State) : (emit e s).commands = s.commands := rfl
@[simp] theorem emit_responses (e : PortEvent) (s : State) : (emit e s).responses = s.responses := rfl
@[simp] theorem emit_env (e : PortEvent) (s : State) : (emit e s).env = s.env := rfl

@[simp] theorem respond_regs (st : Status) (r : F64) (s : State) : (respond st r s).regs = s.regs := rfl
@[simp] theorem respond_port (st : Status) (r : F64) (s : State) : (respond st r s).port = s.port := rfl
@[simp] theorem respond_trace (st : Status) (r : F64) (s : State) : (respond st r s).trace = s.trace := rfl
@[simp] theorem respond_commands (st : Status) (r : F64) (s : State) : (respond st r s).commands = s.commands := rfl
@[simp] theorem respond_responses (st : Status) (r : F64) (s : State) : (respond st r s).responses = s.responses ++ [{ resp := respWord st s.regs.life s.regs.pwr, result := r }] := rfl
@[simp] theorem respond_env (st : Status) (r : F64) (s : State) : (respond st r s).env = s.env := rfl

@[simp] theorem pinWrite_regs (p : PinId) (l : Level) (s : State) : (pinWrite p l s).regs = { s.regs with clk := .driven l } := rfl
@[simp] theorem pinWrite_port (p : PinId) (l : Level) (s : State) : (pinWrite p l s).port = s.port := rfl
@[simp] theorem pinWrite_trace (p : PinId) (l : Level) (s : State) : (pinWrite p l s).trace = s.trace ++ [.write p l] := rfl
@[simp] theorem pinWrite_commands (p : PinId) (l : Level) (s : State) : (pinWrite p l s).commands = s.commands := rfl
@[simp] theorem pinWrite_responses (p : PinId) (l : Level) (s : State) : (pinWrite p l s).responses = s.responses := rfl
@[simp] theorem pinWrite_env (p : PinId) (l : Level) (s : State) : (pinWrite p l s).env = s.env := rfl

@[simp] theorem holdHigh_regs (p : PinId) (t : HoldTime) (s : State) : (holdHigh p t s).regs = { s.regs with clk := .driven true } := rfl
@[simp] theorem holdHigh_port (p : PinId) (t : HoldTime) (s : State) : (holdHigh p t s).port = s.port := rfl
@[simp] theorem holdHigh_trace (p : PinId) (t : HoldTime) (s : State) : (holdHigh p t s).trace = s.trace ++ [.hold p t] := rfl
@[simp] theorem holdHigh_commands (p : PinId) (t : HoldTime) (s : State) : (holdHigh p t s).commands = s.commands := rfl
@[simp] theorem holdHigh_responses (p : PinId) (t : HoldTime) (s : State) : (holdHigh p t s).responses = s.responses := rfl
@[simp] theorem holdHigh_env (p : PinId) (t : HoldTime) (s : State) : (holdHigh p t s).env = s.env := rfl

@[simp] theorem portClose_regs (s : State) : (portClose s).regs = { s.regs with clk := .undriven } := rfl
@[simp] theorem portClose_port (s : State) : (portClose s).port = none := rfl
@[simp] theorem portClose_trace (s : State) : (portClose s).trace = s.trace ++ [.closePort] := rfl
@[simp] theorem portClose_commands (s : State) : (portClose s).commands = s.commands := rfl
@[simp] theorem portClose_responses (s : State) : (portClose s).responses = s.responses := rfl
@[simp] theorem portClose_env (s : State) : (portClose s).env = s.env := rfl

@[simp] theorem pinRead_regs (p : PinId) (s : State) : (pinRead p s).2.regs = s.regs := rfl
@[simp] theorem pinRead_port (p : PinId) (s : State) : (pinRead p s).2.port = s.port := rfl
@[simp] theorem pinRead_trace (p : PinId) (s : State) : (pinRead p s).2.trace = s.trace ++ [.read p (pinRead p s).1] := rfl
@[simp] theorem pinRead_commands (p : PinId) (s : State) : (pinRead p s).2.commands = s.commands := rfl
@[simp] theorem pinRead_responses (p : PinId) (s : State) : (pinRead p s).2.responses = s.responses := rfl
@[simp] theorem pinRead_env (p : PinId) (s : State) : (pinRead p s).2.env = { s.env with levels := (s.env.levels.next Config.freeLevel).2 } := rfl

@[simp] theorem drawDeadline_regs (s : State) : (drawDeadline s).2.regs = s.regs := rfl
@[simp] theorem drawDeadline_port (s : State) : (drawDeadline s).2.port = s.port := rfl
@[simp] theorem drawDeadline_trace (s : State) : (drawDeadline s).2.trace = s.trace := rfl
@[simp] theorem drawDeadline_commands (s : State) : (drawDeadline s).2.commands = s.commands := rfl
@[simp] theorem drawDeadline_responses (s : State) : (drawDeadline s).2.responses = s.responses := rfl
@[simp] theorem drawDeadline_env (s : State) : (drawDeadline s).2.env = { s.env with deadlines := (s.env.deadlines.next Config.freeDeadline).2 } := rfl

@[simp] theorem drawNan_regs (s : State) : (drawNan s).2.regs = s.regs := rfl
@[simp] theorem drawNan_port (s : State) : (drawNan s).2.port = s.port := rfl
@[simp] theorem drawNan_trace (s : State) : (drawNan s).2.trace = s.trace := rfl
@[simp] theorem drawNan_commands (s : State) : (drawNan s).2.commands = s.commands := rfl
@[simp] theorem drawNan_responses (s : State) : (drawNan s).2.responses = s.responses := rfl
@[simp] theorem drawNan_env (s : State) : (drawNan s).2.env = { s.env with nans := s.env.nans + 1 } := rfl

@[simp] theorem presentCommand_commands (c : Command) (s : State) :
    (presentCommand c s).commands = c :: s.commands := rfl

end Sys2Proof.Machine
end

