-- ==== Sys2Proof/Laws/Ops.lean ====
section
/-!
SUPPORT. What each shared operation of Machine/Ops.lean can do, said once: supplies, responses, dispatch, the pins, and
taking a command.
-/

namespace Sys2Proof.Machine

/-! ## Supplies -/

section supplies

variable {α : Type} (free : Nat → α)

/-- A draw answers the 0-th answer to come and leaves the others. -/
theorem Supply.next_eq (q : Supply α) : q.next free = (q.nth free 0, q.drop 1) := by
  obtain ⟨queue, taken⟩ := q
  cases queue with
  | nil => simp [Supply.next, Supply.nth, Supply.drop]
  | cons a rest => simp [Supply.next, Supply.nth, Supply.drop]

@[simp] theorem Supply.next_fst (q : Supply α) : (q.next free).1 = q.nth free 0 := by rw [q.next_eq]

@[simp] theorem Supply.next_snd (q : Supply α) : (q.next free).2 = q.drop 1 := by rw [q.next_eq]

@[simp] theorem Supply.drop_zero (q : Supply α) : q.drop 0 = q := by
  obtain ⟨queue, taken⟩ := q
  simp [Supply.drop]

@[simp] theorem Supply.drop_drop (q : Supply α) (j k : Nat) : (q.drop j).drop k = q.drop (j + k) := by
  obtain ⟨queue, taken⟩ := q
  simp only [Supply.drop, List.drop_drop, List.length_drop, Supply.mk.injEq, true_and]
  omega

@[simp] theorem Supply.nth_drop (q : Supply α) (j k : Nat) : (q.drop j).nth free k = q.nth free (j + k) := by
  obtain ⟨queue, taken⟩ := q
  simp only [Supply.nth, Supply.drop, List.getD_eq_getElem?_getD, List.getElem?_drop, List.length_drop]
  congr 2
  omega

end supplies

/-! ## Responses -/

/-- The response a status leads to, in the claims' terms. -/
theorem respond_eq_answered (st : Status) (r : F64) (s : State) :
    respond st r s = answered st.code.toNat r s := by
  have word : ∀ (st : Status) (life : Life) (pwr : Pwr),
      respWord st life pwr = BitVec.ofNat 32 (st.code.toNat + 16 * lifeNumber life + 64 * pwrNumber pwr) := by
    intro st life pwr
    cases st <;> cases life <;> cases pwr <;> rfl
  simp only [respond, answered, word]

theorem raise_eq (st : Status) (s : State) : raise st s = .next (answered st.code.toNat 0 s) := by
  simp only [raise, complete, respond_eq_answered]

theorem complete_eq (st : Status) (s : State) : complete st s = .next (answered st.code.toNat 0 s) := by
  simp only [complete, respond_eq_answered]

@[simp] theorem status_of_respWord (st : Status) (life : Life) (pwr : Pwr) (r : F64) :
    Response.status { resp := respWord st life pwr, result := r } = st.code.toNat := by
  change ((respWord st life pwr).extractLsb' 0 4).toNat = _
  cases st <;> cases life <;> cases pwr <;> decide

theorem respWord_life (st : Status) (life : Life) (pwr : Pwr) :
    (respWord st life pwr).extractLsb' 4 2 = life.code := by
  cases st <;> cases life <;> cases pwr <;> decide

theorem respWord_pwr (st : Status) (life : Life) (pwr : Pwr) :
    (respWord st life pwr).extractLsb' 6 1 = pwr.code := by
  cases st <;> cases life <;> cases pwr <;> decide

theorem respWord_zero (st : Status) (life : Life) (pwr : Pwr) :
    (respWord st life pwr).extractLsb' 7 25 = 0 := by
  cases st <;> cases life <;> cases pwr <;> decide

theorem status_code_le (st : Status) : st.code.toNat ≤ 8 := by cases st <;> decide

/-! ## Dispatch -/

/-- A command that DISPATCH refuses or completes itself, and the status it gives it (44_lifecycle.md R119). -/
def refusal (op : Opcode) (life : Life) (pwr : Pwr) : Option Status :=
  match life with
  | .closed => if op = .close then some .ok else some .useAfterClose
  | .uninit => if op = .configure ∨ op = .close then none else some .invalidState
  | .ready =>
    if op = .configure then some .invalidState
    else if (op = .tare ∨ op = .getWeight) ∧ pwr = .asleep then some .invalidState
    else none

/-- DISPATCH in one line: the refusal of the table, or the command's rule. -/
theorem dispatch_eq (op : Opcode) (s : State) (rule : State → Result) :
    dispatch op s rule =
      match refusal op s.regs.life s.regs.pwr with
      | some st => .next (respond st 0 s)
      | none => rule s := by
  unfold dispatch refusal raise complete
  cases op <;> cases s.regs.life <;> cases s.regs.pwr <;> simp

/-- What a dispatched command that answers a next state did: it was refused with a response and nothing else, or its
rule ran in a state that is not CLOSED. -/
theorem dispatch_cases {op : Opcode} {s t : State} {rule : State → Result} (h : dispatch op s rule = .next t) :
    (∃ st, refusal op s.regs.life s.regs.pwr = some st ∧ t = respond st 0 s) ∨
      (refusal op s.regs.life s.regs.pwr = none ∧ rule s = .next t) := by
  rw [dispatch_eq] at h
  cases hr : refusal op s.regs.life s.regs.pwr with
  | some st =>
    rw [hr] at h
    cases h
    exact .inl ⟨st, rfl, rfl⟩
  | none =>
    rw [hr] at h
    exact .inr ⟨rfl, h⟩

/-- A rule that runs in a state that is not CLOSED runs in READY, but for CONFIGURE (UNINIT) and CLOSE. -/
theorem refusal_none {op : Opcode} {life : Life} {pwr : Pwr} (h : refusal op life pwr = none) :
    (op = .configure ∧ life = .uninit) ∨ (op = .close ∧ life ≠ .closed) ∨
      (op ≠ .configure ∧ op ≠ .close ∧ life = .ready ∧ (op = .tare ∨ op = .getWeight → pwr = .awake)) := by
  cases op <;> cases life <;> cases pwr <;> simp_all [refusal]

/-! ## The invariant -/

/-- The invariant is about the registers and the port alone. -/
theorem State.Inv.of_eq {s u : State} (h : s.Inv) (regs : u.regs = s.regs) (port : u.port = s.port) : u.Inv where
  refUnit_nonzero := by rw [regs]; exact h.refUnit_nonzero
  portOpen_iff_ready := by rw [regs]; exact h.portOpen_iff_ready
  clk_awake := by rw [regs]; exact h.clk_awake
  clk_asleep := by rw [regs]; exact h.clk_asleep
  clk_undriven := by rw [regs]; exact h.clk_undriven
  pwr_awake := by rw [regs]; exact h.pwr_awake
  session := by rw [regs, port]; exact h.session
  no_session := by rw [regs, port]; exact h.no_session

/-! ## Pins -/

theorem withClockPin_some {s : State} {c : PinId} (k : PinId → Result) (h : s.regs.clockPin = some c) :
    withClockPin s k = k c := by
  simp only [withClockPin, h]

theorem withDataPin_some {s : State} {d : PinId} (k : PinId → Result) (h : s.regs.dataPin = some d) :
    withDataPin s k = k d := by
  simp only [withDataPin, h]

theorem withClockPin_cases {s t : State} {k : PinId → Result} (h : withClockPin s k = .next t) :
    ∃ c, s.regs.clockPin = some c ∧ k c = .next t := by
  unfold withClockPin at h
  split at h
  · exact ⟨_, ‹_›, h⟩
  · cases h

theorem withDataPin_cases {s t : State} {k : PinId → Result} (h : withDataPin s k = .next t) :
    ∃ d, s.regs.dataPin = some d ∧ k d = .next t := by
  unfold withDataPin at h
  split at h
  · exact ⟨_, ‹_›, h⟩
  · cases h

/-! ## Taking a command -/

theorem takeCommand_cons {s : State} {c : Command} {rest : List Command} (h : s.commands = c :: rest) :
    takeCommand s = some (c, { s with commands := rest }) := by
  simp only [takeCommand, h]

theorem takeCommand_nil {s : State} (h : s.commands = []) : takeCommand s = none := by
  simp only [takeCommand, h]

/-! ## READ's primitives in closed form -/

theorem pinWrite_eq (p : PinId) (l : Level) (s : State) :
    pinWrite p l s =
      { s with regs := { s.regs with clk := .driven l }, trace := s.trace ++ [.write p l] } := rfl

theorem pinRead_eq (p : PinId) (s : State) :
    pinRead p s =
      (s.levelAt 0,
        { s with
          trace := s.trace ++ [.read p (s.levelAt 0)]
          env := { s.env with levels := s.env.levels.drop 1 } }) := by
  simp only [pinRead, emit, Supply.next_eq, State.levelAt]

theorem drawDeadline_eq (s : State) :
    drawDeadline s =
      (s.nextDeadline, { s with env := { s.env with deadlines := s.env.deadlines.drop 1 } }) := by
  simp only [drawDeadline, Supply.next_eq, State.nextDeadline]

/-- NAN_RESULT is a NaN, whatever the free pattern is (42_calibration.md R102). -/
theorem isNaN_nanFrom (x : F64) : f64IsNaN (nanFrom x) = true := by
  unfold nanFrom
  split
  · assumption
  · decide

end Sys2Proof.Machine
end

