-- ==== Sys2Proof/Laws/Reader.lean ====
section
/-!
SUPPORT. READ in closed form: its ready wait, data phase and selector phase, the frame of a READ, and the READs of one
command.
-/

namespace Sys2Proof.Machine

/-! ## What a READ may change -/

/-- The state `s` with a clock, appended events, and levels and deadlines taken: all that a READ may change. -/
def afterRead (s : State) (clk : Wire) (es : List PortEvent) (levels deadlines : Nat) : State :=
  { s with
    regs := { s.regs with clk := clk }
    trace := s.trace ++ es
    env := { s.env with levels := s.env.levels.drop levels, deadlines := s.env.deadlines.drop deadlines } }

section afterRead

variable (s : State) (clk : Wire) (es : List PortEvent) (levels deadlines : Nat)

@[simp] theorem afterRead_regs : (afterRead s clk es levels deadlines).regs = { s.regs with clk := clk } := rfl

@[simp] theorem afterRead_port : (afterRead s clk es levels deadlines).port = s.port := rfl

@[simp] theorem afterRead_trace : (afterRead s clk es levels deadlines).trace = s.trace ++ es := rfl

@[simp] theorem afterRead_commands : (afterRead s clk es levels deadlines).commands = s.commands := rfl

@[simp] theorem afterRead_responses : (afterRead s clk es levels deadlines).responses = s.responses := rfl

@[simp] theorem afterRead_env : (afterRead s clk es levels deadlines).env =
    { s.env with levels := s.env.levels.drop levels, deadlines := s.env.deadlines.drop deadlines } := rfl

@[simp] theorem afterRead_levelAt (k : Nat) :
    (afterRead s clk es levels deadlines).levelAt k = s.levelAt (levels + k) := by
  simp [State.levelAt]

@[simp] theorem afterRead_afterRead (clk' : Wire) (es' : List PortEvent) (levels' deadlines' : Nat) :
    afterRead (afterRead s clk es levels deadlines) clk' es' levels' deadlines' =
      afterRead s clk' (es ++ es') (levels + levels') (deadlines + deadlines') := by
  simp [afterRead]

theorem afterRead_zero : afterRead s s.regs.clk [] 0 0 = s := by
  simp [afterRead]

end afterRead

theorem pinWrite_afterRead (p : PinId) (l : Level) (s : State) :
    pinWrite p l s = afterRead s (.driven l) [.write p l] 0 0 := by
  simp [pinWrite_eq, afterRead]

theorem pinRead_afterRead (p : PinId) (s : State) :
    pinRead p s = (s.levelAt 0, afterRead s s.regs.clk [.read p (s.levelAt 0)] 1 0) := by
  simp [pinRead_eq, afterRead]

theorem drawDeadline_afterRead (s : State) :
    drawDeadline s = (s.nextDeadline, afterRead s s.regs.clk [] 0 1) := by
  simp [drawDeadline_eq, afterRead]

/-! ## The ready wait -/

/-- The wait ends at the first read that answers 0 (40_serial_reader.md R78). -/
theorem readyWait_ready (d : PinId) (waits k : Nat) (s : State) (hk : k ≤ waits)
    (ones : ∀ j < k, s.levelAt j = true) (zero : s.levelAt k = false) :
    readyWait d waits s = (true, afterRead s s.regs.clk (waitEvents d k ++ [.read d false]) (k + 1) 0) := by
  induction waits generalizing k s with
  | zero =>
    obtain rfl : k = 0 := by omega
    simp [readyWait, pinRead_afterRead, zero, waitEvents]
  | succ waits ih =>
    cases k with
    | zero => simp [readyWait, pinRead_afterRead, zero, waitEvents]
    | succ k =>
      have first : s.levelAt 0 = true := ones 0 (by omega)
      have step := ih k (afterRead s s.regs.clk [.read d true] 1 0) (by omega)
        (fun j hj => by
          rw [afterRead_levelAt, Nat.add_comm]
          exact ones (j + 1) (by omega))
        (by
          rw [afterRead_levelAt, Nat.add_comm]
          exact zero)
      simp only [readyWait, pinRead_afterRead, first, Bool.true_eq_false, if_false, step]
      simp [waitEvents, List.replicate_succ, Nat.add_comm, Nat.add_left_comm]

/-- The wait times out when every read within the deadline answers 1 (40_serial_reader.md R79, R80). -/
theorem readyWait_timeout (d : PinId) (waits : Nat) (s : State) (ones : ∀ j ≤ waits, s.levelAt j = true) :
    readyWait d waits s = (false, afterRead s s.regs.clk (waitEvents d (waits + 1)) (waits + 1) 0) := by
  induction waits generalizing s with
  | zero =>
    have first : s.levelAt 0 = true := ones 0 (by omega)
    simp [readyWait, pinRead_afterRead, first, waitEvents]
  | succ waits ih =>
    have first : s.levelAt 0 = true := ones 0 (by omega)
    have step := ih (afterRead s s.regs.clk [.read d true] 1 0) (fun j hj => by
      rw [afterRead_levelAt, Nat.add_comm]
      exact ones (j + 1) (by omega))
    simp only [readyWait, pinRead_afterRead, first, Bool.true_eq_false, if_false, step]
    simp [waitEvents, List.replicate_succ, Nat.add_comm, Nat.add_left_comm]

/-- The levels to come either hold a first 0 within a bound, or are all 1 up to it. -/
theorem first_zero_or_ones (f : Nat → Level) (n : Nat) :
    (∃ k ≤ n, (∀ j < k, f j = true) ∧ f k = false) ∨ ∀ j ≤ n, f j = true := by
  induction n with
  | zero =>
    cases h : f 0 with
    | false => exact .inl ⟨0, le_refl 0, by simp, h⟩
    | true => exact .inr fun j hj => by obtain rfl : j = 0 := by omega
                                        exact h
  | succ n ih =>
    rcases ih with ⟨k, hk, ones, zero⟩ | ones
    · exact .inl ⟨k, by omega, ones, zero⟩
    · cases h : f (n + 1) with
      | false => exact .inl ⟨n + 1, le_refl _, fun j hj => ones j (by omega), h⟩
      | true =>
        refine .inr fun j hj => ?_
        rcases Nat.lt_or_ge n j with hlt | hge
        · obtain rfl : j = n + 1 := by omega
          exact h
        · exact ones j hge

/-! ## The data phase -/

theorem getLsbD_shiftIn_zero (acc : Raw) (b : Level) : (shiftIn acc b).getLsbD 0 = b := by
  refine (BitVec.getLsbD_append (x := acc.extractLsb' 0 23) (y := BitVec.ofBool b)).trans ?_
  simp

theorem getLsbD_shiftIn_succ (acc : Raw) (b : Level) (i : Nat) (hi : i < 23) :
    (shiftIn acc b).getLsbD (i + 1) = acc.getLsbD i := by
  refine (BitVec.getLsbD_append (x := acc.extractLsb' 0 23) (y := BitVec.ofBool b)).trans ?_
  simp [hi]

/-- The data phase of any number of pulses: the events, the bits shifted in, and what stood in `acc` before
(40_serial_reader.md R81). -/
theorem dataPhase_spec (d c : PinId) (pulses : Nat) (hp : pulses ≤ 24) (acc : Raw) (s : State) :
    ∃ acc' : Raw,
      dataPhase d c pulses acc s =
        (acc', afterRead s (if pulses = 0 then s.regs.clk else .driven false)
          ((List.range pulses).flatMap fun i => dataPulse d c (s.levelAt i)) pulses 0) ∧
      (∀ i < pulses, acc'.getLsbD (pulses - 1 - i) = s.levelAt i) ∧
      ∀ i, i + pulses < 24 → acc'.getLsbD (i + pulses) = acc.getLsbD i := by
  induction pulses generalizing acc s with
  | zero => exact ⟨acc, by simp [dataPhase, afterRead_zero], by simp, by simp⟩
  | succ pulses ih =>
    obtain ⟨acc', run, bits, old⟩ := ih (by omega) (shiftIn acc (s.levelAt 0))
      (afterRead s (.driven false) (dataPulse d c (s.levelAt 0)) 1 0)
    refine ⟨acc', ?_, ?_, ?_⟩
    · simp only [dataPhase, pinWrite_afterRead, pinRead_afterRead, afterRead_afterRead, afterRead_levelAt,
        Nat.zero_add, Nat.add_zero, afterRead_regs, List.cons_append, List.nil_append]
      refine (congrArg _ ?_).trans (run.trans ?_)
      · simp [dataPulse]
      · simp [List.range_succ_eq_map, List.flatMap_map, Nat.add_comm]
    · intro i hi
      cases i with
      | zero =>
        have := old 0 (by omega)
        simp only [Nat.zero_add, getLsbD_shiftIn_zero] at this
        simpa using this
      | succ i =>
        have := bits i (by omega)
        rw [afterRead_levelAt] at this
        rw [show pulses + 1 - 1 - (i + 1) = pulses - 1 - i by omega, Nat.add_comm i 1]
        exact this
    · intro i hi
      have := old (i + 1) (by omega)
      rw [getLsbD_shiftIn_succ acc _ i (by omega)] at this
      rw [show i + (pulses + 1) = i + 1 + pulses by omega]
      exact this

/-- The data phase of a READ. -/
theorem dataPhase_read (d c : PinId) (s : State) :
    ∃ acc : Raw,
      dataPhase d c 24 0 s = (acc, afterRead s (.driven false) (dataEvents d c s.levelAt) 24 0) ∧
      ∀ i < 24, acc.getLsbD (23 - i) = s.levelAt i := by
  obtain ⟨acc, run, bits, -⟩ := dataPhase_spec d c 24 (le_refl 24) 0 s
  exact ⟨acc, by simpa [dataEvents] using run, fun i hi => by simpa using bits i hi⟩

/-! ## The selector phase -/

/-- The selector phase: its events, the clock left low (40_serial_reader.md R82). -/
theorem selectorPhase_eq (c : PinId) (pulses : Nat) (s : State) :
    selectorPhase c pulses s =
      afterRead s (if pulses = 0 then s.regs.clk else .driven false) (selectorEvents c pulses) 0 0 := by
  induction pulses generalizing s with
  | zero => simp [selectorPhase, selectorEvents, afterRead_zero]
  | succ pulses ih =>
    simp only [selectorPhase, pinWrite_afterRead, ih]
    simp [selectorEvents, List.range_succ_eq_map, List.flatMap_map]

/-! ## READ -/

/-- The ready wait of a READ with a read of 0 within its deadline. -/
theorem awaitReady_ready (d : PinId) (k : Nat) (s : State) (hk : k ≤ s.nextDeadline)
    (ones : ∀ j < k, s.levelAt j = true) (zero : s.levelAt k = false) :
    awaitReady d s = (true, afterRead s s.regs.clk (waitEvents d k ++ [.read d false]) (k + 1) 1) := by
  have wait := readyWait_ready d s.nextDeadline k (afterRead s s.regs.clk [] 0 1) hk
    (by simpa using ones) (by simpa using zero)
  simp only [afterRead_afterRead, afterRead_regs, List.nil_append, Nat.zero_add, Nat.add_zero] at wait
  simp only [awaitReady, drawDeadline_afterRead, wait]

/-- The ready wait of a READ that times out. -/
theorem awaitReady_timeout (d : PinId) (s : State) (ones : ∀ j ≤ s.nextDeadline, s.levelAt j = true) :
    awaitReady d s =
      (false, afterRead s s.regs.clk (waitEvents d (s.nextDeadline + 1)) (s.nextDeadline + 1) 1) := by
  have wait := readyWait_timeout d s.nextDeadline (afterRead s s.regs.clk [] 0 1) (by simpa using ones)
  simp only [afterRead_afterRead, afterRead_regs, List.nil_append, Nat.zero_add, Nat.add_zero] at wait
  simp only [awaitReady, drawDeadline_afterRead, wait]

/-- A READ whose wait ends: the Sample and all it changes (40_serial_reader.md R77). -/
theorem readSample_ready (d c : PinId) (p k : Nat) (s : State) (hk : k ≤ s.nextDeadline)
    (ones : ∀ j < k, s.levelAt j = true) (zero : s.levelAt k = false) :
    ∃ acc : Raw, (∀ i < 24, acc.getLsbD (23 - i) = s.levelAt (k + 1 + i)) ∧
      readSample d c p s =
        (some (decodeSample s.regs.bitOrder acc),
          afterRead s (.driven false)
            (waitEvents d k ++ [.read d false] ++ dataEvents d c (fun i => s.levelAt (k + 1 + i)) ++
              selectorEvents c (p - 24)) (k + 25) 1) := by
  obtain ⟨acc, data, bits⟩ := dataPhase_read d c
    (afterRead s s.regs.clk (waitEvents d k ++ [.read d false]) (k + 1) 1)
  have levels : (afterRead s s.regs.clk (waitEvents d k ++ [.read d false]) (k + 1) 1).levelAt =
      fun i => s.levelAt (k + 1 + i) := funext fun i => afterRead_levelAt s _ _ _ _ i
  rw [levels] at data
  refine ⟨acc, fun i hi => by simpa using bits i hi, ?_⟩
  simp only [readSample, awaitReady_ready d k s hk ones zero, if_true, data, selectorPhase_eq]
  simp [Nat.add_assoc]

/-- A READ whose wait times out (40_serial_reader.md R80). -/
theorem readSample_timeout (d c : PinId) (p : Nat) (s : State) (ones : ∀ j ≤ s.nextDeadline, s.levelAt j = true) :
    readSample d c p s =
      (none, afterRead s s.regs.clk (waitEvents d (s.nextDeadline + 1)) (s.nextDeadline + 1) 1) := by
  simp [readSample, awaitReady_timeout d s ones]

/-- A ready wait that timed out is a READ that timed out, whatever the clock pin: the wait reads none (R78). -/
theorem readSample_of_awaitReady {d : PinId} (c : PinId) (p : Nat) {s : State} (h : (awaitReady d s).1 = false) :
    readSample d c p s = (none, (awaitReady d s).2) := by
  simp [readSample, h]

/-- What a READ can do: capture a Sample after k reads of 1, or time out. -/
theorem readSample_cases (d c : PinId) (p : Nat) (s : State) :
    (∃ (k : Nat) (acc : Raw), k ≤ s.nextDeadline ∧ (∀ j < k, s.levelAt j = true) ∧ s.levelAt k = false ∧
      (∀ i < 24, acc.getLsbD (23 - i) = s.levelAt (k + 1 + i)) ∧
      readSample d c p s =
        (some (decodeSample s.regs.bitOrder acc),
          afterRead s (.driven false)
            (waitEvents d k ++ [.read d false] ++ dataEvents d c (fun i => s.levelAt (k + 1 + i)) ++
              selectorEvents c (p - 24)) (k + 25) 1)) ∨
    ((∀ j ≤ s.nextDeadline, s.levelAt j = true) ∧
      readSample d c p s =
        (none, afterRead s s.regs.clk (waitEvents d (s.nextDeadline + 1)) (s.nextDeadline + 1) 1)) := by
  rcases first_zero_or_ones s.levelAt s.nextDeadline with ⟨k, hk, ones, zero⟩ | ones
  · obtain ⟨acc, bits, run⟩ := readSample_ready d c p k s hk ones zero
    exact .inl ⟨k, acc, hk, ones, zero, bits, run⟩
  · exact .inr ⟨ones, readSample_timeout d c p s ones⟩

/-- The frame of a READ: the clock, the trace and the inputs; after a Sample the clock is low, after a timeout it is as it
was. -/
theorem readSample_frame (d c : PinId) (p : Nat) (s : State) :
    ∃ es levels, (readSample d c p s).2 =
      afterRead s (if (readSample d c p s).1 = none then s.regs.clk else .driven false) es levels 1 := by
  rcases readSample_cases d c p s with ⟨k, acc, -, -, -, -, run⟩ | ⟨-, run⟩
  · exact ⟨_, _, by rw [run]; rfl⟩
  · exact ⟨_, _, by rw [run]; rfl⟩

/-! ## The READs of one command -/

/-- The READs of one command, all successful: their sum, from the state after the last (42_calibration.md R105). -/
theorem sumReads_done {d c : PinId} {p : Nat} {xs : List Int} {s u : State} (sum : Int)
    (done : ReadsDone d c p xs s u) : sumReads d c p xs.length sum s = (some (sum + xs.sum), u) := by
  induction xs generalizing s sum with
  | nil => simp_all [ReadsDone, sumReads]
  | cons x xs ih =>
    obtain ⟨v, read, rest⟩ := done
    simp only [List.length_cons, sumReads, read, ih (sum + x) rest, List.sum_cons, add_assoc]

/-- The READs of one command when one of them times out. -/
theorem sumReads_timeout {d c : PinId} {p n : Nat} {xs : List Int} {s u t : State} (sum : Int)
    (hn : xs.length < n) (done : ReadsDone d c p xs s u) (last : readSample d c p u = (none, t)) :
    sumReads d c p n sum s = (none, t) := by
  induction xs generalizing s sum n with
  | nil =>
    obtain ⟨n, rfl⟩ : ∃ m, n = m + 1 := ⟨n - 1, by simp at hn; omega⟩
    simp only [ReadsDone] at done
    subst done
    simp [sumReads, last]
  | cons x xs ih =>
    obtain ⟨n, rfl⟩ : ∃ m, n = m + 1 := ⟨n - 1, by simp at hn; omega⟩
    obtain ⟨v, read, rest⟩ := done
    simp only [sumReads, read]
    exact ih (sum + x) (by simpa using hn) rest

/-- The READs of one command all succeed, or one of them is the first to time out. -/
theorem reads_done_or_timeout (d c : PinId) (p n : Nat) (s : State) :
    (∃ (xs : List Int) (u : State), xs.length = n ∧ ReadsDone d c p xs s u) ∨
      ∃ (xs : List Int) (u t : State), xs.length < n ∧ ReadsDone d c p xs s u ∧
        readSample d c p u = (none, t) := by
  induction n generalizing s with
  | zero => exact .inl ⟨[], s, rfl, rfl⟩
  | succ n ih =>
    rcases h : readSample d c p s with ⟨_ | x, v⟩
    · exact .inr ⟨[], s, v, by simp, rfl, h⟩
    · rcases ih v with ⟨xs, u, len, done⟩ | ⟨xs, u, t, len, done, last⟩
      · exact .inl ⟨x :: xs, u, by simp [len], v, h, done⟩
      · exact .inr ⟨x :: xs, u, t, by simpa using len, ⟨v, h, done⟩, last⟩

/-- The frame of successful READs, the clock low after at least one. -/
theorem readsDone_frame {d c : PinId} {p : Nat} {xs : List Int} {s u : State} (done : ReadsDone d c p xs s u) :
    ∃ es levels deadlines, u =
      afterRead s (if xs = [] then s.regs.clk else .driven false) es levels deadlines := by
  induction xs generalizing s with
  | nil => exact ⟨[], 0, 0, by simpa [ReadsDone, afterRead_zero] using done.symm⟩
  | cons x xs ih =>
    obtain ⟨v, read, rest⟩ := done
    obtain ⟨es, levels, frame⟩ := readSample_frame d c p s
    obtain ⟨es', levels', deadlines', frame'⟩ := ih rest
    rw [read] at frame
    simp only [reduceCtorEq, if_false] at frame
    refine ⟨es ++ es', levels + levels', 1 + deadlines', ?_⟩
    rw [frame', frame]
    simp

end Sys2Proof.Machine
end

