-- ==== Sys2Proof/Laws/Commands.lean ====
section
/-!
SUPPORT. What each command that answers a next state has done, one inversion lemma per command, and what a step has done.
-/

namespace Sys2Proof.Machine

/-- DISPATCH refused the command, or completed CLOSE in CLOSED: one response and nothing else. -/
def Refused (op : Opcode) (s t : State) : Prop :=
  ∃ st, refusal op s.regs.life s.regs.pwr = some st ∧ t = respond st 0 s

/-! ## The setters -/

theorem execSetReadingFormat_cases {bito byteo : BitVec 2} {s t : State}
    (h : execSetReadingFormat bito byteo s = .next t) :
    Refused .setReadingFormat s t ∨
      (s.regs.life = .ready ∧ ∃ byte bit, orderOfCode byteo = some byte ∧ orderOfCode bito = some bit ∧
        t = respond .ok 0 { s with regs := { s.regs with byteOrder := byte, bitOrder := bit } }) ∨
      (s.regs.life = .ready ∧ (orderOfCode byteo = none ∨ orderOfCode bito = none) ∧ t = respond .invalidFormat 0 s) := by
  rcases dispatch_cases h with refused | ⟨runs, rule⟩
  · exact .inl refused
  · obtain ⟨h', -⟩ | ⟨h', -⟩ | ⟨-, -, ready, -⟩ := refusal_none runs
    · cases h'
    · cases h'
    · cases hbyte : orderOfCode byteo <;> cases hbit : orderOfCode bito <;>
        simp only [hbyte, hbit, complete, raise, Host.Outcome.next.injEq] at rule
      · exact .inr (.inr ⟨ready, .inl rfl, rule.symm⟩)
      · exact .inr (.inr ⟨ready, .inl rfl, rule.symm⟩)
      · exact .inr (.inr ⟨ready, .inr rfl, rule.symm⟩)
      · exact .inr (.inl ⟨ready, _, _, rfl, rfl, rule.symm⟩)

theorem execSetGainChannel_cases {gc : BitVec 2} {s t : State} (h : execSetGainChannel gc s = .next t) :
    Refused .setGainChannel s t ∨
      (s.regs.life = .ready ∧ ∃ g, gainOfCode gc = some g ∧
        t = respond .ok 0 { s with regs := { s.regs with gain := g } }) ∨
      (s.regs.life = .ready ∧ gainOfCode gc = none ∧ t = respond .invalidFormat 0 s) := by
  rcases dispatch_cases h with refused | ⟨runs, rule⟩
  · exact .inl refused
  · obtain ⟨h', -⟩ | ⟨h', -⟩ | ⟨-, -, ready, -⟩ := refusal_none runs
    · cases h'
    · cases h'
    · cases hg : gainOfCode gc <;> simp only [hg, complete, raise, Host.Outcome.next.injEq] at rule
      · exact .inr (.inr ⟨ready, rfl, rule.symm⟩)
      · exact .inr (.inl ⟨ready, _, rfl, rule.symm⟩)

theorem execSetReferenceUnit_cases {u : F64} {s t : State} (h : execSetReferenceUnit u s = .next t) :
    Refused .setReferenceUnit s t ∨
      (s.regs.life = .ready ∧ f64IsZero u = false ∧
        t = respond .ok 0 { s with regs := { s.regs with refUnit := u } }) ∨
      (s.regs.life = .ready ∧ f64IsZero u = true ∧ t = respond .invalidReferenceUnit 0 s) := by
  rcases dispatch_cases h with refused | ⟨runs, rule⟩
  · exact .inl refused
  · obtain ⟨h', -⟩ | ⟨h', -⟩ | ⟨-, -, ready, -⟩ := refusal_none runs
    · cases h'
    · cases h'
    · cases hz : f64IsZero u <;>
        simp only [hz, complete, raise, if_true, Bool.false_eq_true, if_false, Host.Outcome.next.injEq] at rule
      · exact .inr (.inl ⟨ready, rfl, rule.symm⟩)
      · exact .inr (.inr ⟨ready, rfl, rule.symm⟩)

/-! ## TARE and GET_WEIGHT -/

/-- The READs of a TARE or GET_WEIGHT of `n` Samples from `s`: all done, leaving `u`, with the Samples `xs`. -/
def AllRead (n : Nat) (d c : PinId) (xs : List Int) (s u : State) : Prop :=
  xs.length = n ∧ ReadsDone d c (pulsesPerRead s.regs.gain) xs s u

/-- The READs of a TARE or GET_WEIGHT of `n` Samples from `s`: one of them is the first to time out, leaving `t`. -/
def TimedOut (n : Nat) (d c : PinId) (s t : State) : Prop :=
  ∃ xs u, xs.length < n ∧ ReadsDone d c (pulsesPerRead s.regs.gain) xs s u ∧
    readSample d c (pulsesPerRead s.regs.gain) u = (none, t)

/-- A first READ that times out. -/
theorem TimedOut.first {n : Nat} {d c : PinId} {s t : State} (hn : 0 < n)
    (h : readSample d c (pulsesPerRead s.regs.gain) s = (none, t)) : TimedOut n d c s t :=
  ⟨[], s, hn, rfl, h⟩

/-- The READs of one TARE or GET_WEIGHT on pins that hold their values. -/
theorem runReads_pins {n : Nat} {finish : Option Int × State → State} {s : State} {d c : PinId}
    (hd : s.regs.dataPin = some d) (hc : s.regs.clockPin = some c) :
    runReads n finish s = .next (finish (sumReads d c (pulsesPerRead s.regs.gain) n 0 s)) := by
  simp [runReads, withDataPin_some _ hd, withClockPin_some _ hc, hc]

/-- The READs of one TARE or GET_WEIGHT, when the command answers a next state: all are done, or one times out. Only the
first can time out while CLOCK_PIN holds no value. -/
theorem runReads_cases {n : Nat} {finish : Option Int × State → State} {s t : State} (hn : 0 < n)
    (h : runReads n finish s = .next t) :
    ∃ d c, s.regs.dataPin = some d ∧
      ((s.regs.clockPin = some c ∧ ∃ xs u, AllRead n d c xs s u ∧ t = finish (some xs.sum, u)) ∨
        ∃ u, TimedOut n d c s u ∧ t = finish (none, u) ∧
          (s.regs.clockPin = some c ∨
            s.regs.clockPin = none ∧ readSample d c (pulsesPerRead s.regs.gain) s = (none, u))) := by
  obtain ⟨d, hd, h⟩ := withDataPin_cases h
  by_cases stop : s.regs.clockPin = none ∧ (awaitReady d s).1 = false
  · have read := readSample_of_awaitReady 0 (pulsesPerRead s.regs.gain) stop.2
    simp only [stop, and_self, if_true, Host.Outcome.next.injEq] at h
    exact ⟨d, 0, hd, .inr ⟨_, .first hn read, h.symm, .inr ⟨stop.1, read⟩⟩⟩
  · rw [if_neg stop] at h
    obtain ⟨c, hc, h⟩ := withClockPin_cases h
    simp only [Host.Outcome.next.injEq] at h
    refine ⟨d, c, hd, ?_⟩
    rcases reads_done_or_timeout d c (pulsesPerRead s.regs.gain) n s with
      ⟨xs, u, len, done⟩ | ⟨xs, u, v, len, done, last⟩
    · have sum := sumReads_done 0 done
      rw [len, zero_add] at sum
      exact .inl ⟨hc, xs, u, ⟨len, done⟩, by rw [← h, sum]⟩
    · exact .inr ⟨v, ⟨xs, u, len, done, last⟩, by rw [← h, sumReads_timeout 0 len done last], .inl hc⟩

theorem execTare_cases {nm1 : BitVec 16} {s t : State} (h : execTare nm1 s = .next t) :
    Refused .tare s t ∨
      (s.regs.life = .ready ∧ s.regs.pwr = .awake ∧
        ∃ d c, s.regs.dataPin = some d ∧
          ((s.regs.clockPin = some c ∧ ∃ xs u, AllRead (sampleCount nm1) d c xs s u ∧
              t = respond .ok 0
                { u with regs := { u.regs with offset := meanOf xs.sum (sampleCount nm1) } }) ∨
            ∃ u, TimedOut (sampleCount nm1) d c s u ∧ t = respond .sensorTimeout 0 u ∧
              (s.regs.clockPin = some c ∨
                s.regs.clockPin = none ∧ readSample d c (pulsesPerRead s.regs.gain) s = (none, u)))) := by
  rcases dispatch_cases h with refused | ⟨runs, rule⟩
  · exact .inl refused
  · obtain ⟨h', -⟩ | ⟨h', -⟩ | ⟨-, -, ready, awake⟩ := refusal_none runs
    · cases h'
    · cases h'
    · exact .inr ⟨ready, awake (.inl rfl), runReads_cases (Nat.succ_pos _) rule⟩

theorem execGetWeight_cases {nm1 : BitVec 16} {s t : State} (h : execGetWeight nm1 s = .next t) :
    Refused .getWeight s t ∨
      (s.regs.life = .ready ∧ s.regs.pwr = .awake ∧
        ((f64IsZero s.regs.refUnit = true ∧ t = respond .invalidReferenceUnit 0 s) ∨
          (f64IsZero s.regs.refUnit = false ∧
            ∃ d c, s.regs.dataPin = some d ∧
              ((s.regs.clockPin = some c ∧ ∃ xs u, AllRead (sampleCount nm1) d c xs s u ∧
                  t = respondWeight
                    (weightOf (meanOf xs.sum (sampleCount nm1)) u.regs.offset u.regs.refUnit) u) ∨
                ∃ u, TimedOut (sampleCount nm1) d c s u ∧ t = respond .sensorTimeout 0 u ∧
                  (s.regs.clockPin = some c ∨
                    s.regs.clockPin = none ∧ readSample d c (pulsesPerRead s.regs.gain) s = (none, u)))))) := by
  rcases dispatch_cases h with refused | ⟨runs, rule⟩
  · exact .inl refused
  · obtain ⟨h', -⟩ | ⟨h', -⟩ | ⟨-, -, ready, awake⟩ := refusal_none runs
    · cases h'
    · cases h'
    · refine .inr ⟨ready, awake (.inr rfl), ?_⟩
      cases hz : f64IsZero s.regs.refUnit <;>
        simp only [hz, raise, complete, if_true, Bool.false_eq_true, if_false] at rule
      · exact .inr ⟨rfl, runReads_cases (Nat.succ_pos _) rule⟩
      · simp only [Host.Outcome.next.injEq] at rule
        exact .inl ⟨rfl, rule.symm⟩

/-- The frame of the READs of one command that all succeed. -/
theorem AllRead.frame {n : Nat} {d c : PinId} {xs : List Int} {s u : State} (hn : 0 < n) (h : AllRead n d c xs s u) :
    ∃ es levels deadlines, u = afterRead s (.driven false) es levels deadlines := by
  obtain ⟨es, levels, deadlines, frame⟩ := readsDone_frame h.2
  have : xs ≠ [] := by
    rintro rfl
    simp [← h.1] at hn
  exact ⟨es, levels, deadlines, by simpa [this] using frame⟩

/-- The frame of the READs of one command when one times out: the clock is as it was, or low. -/
theorem TimedOut.frame {n : Nat} {d c : PinId} {s t : State} (h : TimedOut n d c s t) :
    ∃ clk es levels deadlines, (clk = s.regs.clk ∨ clk = .driven false) ∧
      t = afterRead s clk es levels deadlines := by
  obtain ⟨xs, u, -, done, last⟩ := h
  obtain ⟨es, levels, deadlines, frame⟩ := readsDone_frame done
  obtain ⟨es', levels', frame'⟩ := readSample_frame d c (pulsesPerRead s.regs.gain) u
  rw [last] at frame'
  simp only [if_true] at frame'
  rw [frame'] at *
  rw [frame]
  refine ⟨_, _, _, _, ?_, by rw [afterRead_afterRead]⟩
  by_cases hx : xs = [] <;> simp [hx]

/-! ## Power -/

theorem execPowerDown_cases {s t : State} (h : execPowerDown s = .next t) :
    Refused .powerDown s t ∨
      (s.regs.life = .ready ∧ ∃ c, s.regs.clockPin = some c ∧
        t = respond .ok 0
          { s with
            regs := { s.regs with pwr := .asleep, clk := .driven true }
            trace := s.trace ++ [.write c true, .hold c .pdHold] }) := by
  rcases dispatch_cases h with refused | ⟨runs, rule⟩
  · exact .inl refused
  · obtain ⟨h', -⟩ | ⟨h', -⟩ | ⟨-, -, ready, -⟩ := refusal_none runs
    · cases h'
    · cases h'
    · obtain ⟨c, hc, rule⟩ := withClockPin_cases rule
      simp only [complete, Host.Outcome.next.injEq] at rule
      refine .inr ⟨ready, c, hc, rule.symm.trans ?_⟩
      simp [holdHigh, pinWrite, emit]

theorem execPowerUp_cases {s t : State} (h : execPowerUp s = .next t) :
    Refused .powerUp s t ∨
      (s.regs.life = .ready ∧ ∃ c, s.regs.clockPin = some c ∧
        t = respond .ok 0
          { s with
            regs := { s.regs with pwr := .awake, clk := .driven false }
            trace := s.trace ++ [.write c false] }) := by
  rcases dispatch_cases h with refused | ⟨runs, rule⟩
  · exact .inl refused
  · obtain ⟨h', -⟩ | ⟨h', -⟩ | ⟨-, -, ready, -⟩ := refusal_none runs
    · cases h'
    · cases h'
    · obtain ⟨c, hc, rule⟩ := withClockPin_cases rule
      simp only [complete, Host.Outcome.next.injEq] at rule
      exact .inr ⟨ready, c, hc, rule.symm⟩

/-! ## CLOSE -/

theorem execClose_cases {s t : State} (h : execClose s = .next t) :
    Refused .close s t ∨
      (s.regs.life = .ready ∧ ∃ c, s.regs.clockPin = some c ∧
        t = respond .ok 0
          { s with
            regs := { s.regs with portOpen := false, pwr := .awake, life := .closed, clk := .undriven }
            port := none
            trace := s.trace ++ [.write c false, .closePort] }) ∨
      (s.regs.life = .uninit ∧ t = respond .ok 0 { s with regs := { s.regs with life := .closed } }) := by
  rcases dispatch_cases h with refused | ⟨runs, rule⟩
  · exact .inl refused
  · by_cases ready : s.regs.life = .ready
    · simp only [ready, if_true] at rule
      obtain ⟨c, hc, rule⟩ := withClockPin_cases rule
      simp only [complete, Host.Outcome.next.injEq] at rule
      refine .inr (.inl ⟨ready, c, hc, rule.symm.trans ?_⟩)
      simp [portClose, pinWrite, emit]
    · simp only [ready, if_false, complete, Host.Outcome.next.injEq] at rule
      obtain ⟨h', -⟩ | ⟨-, open_⟩ | ⟨-, h', -⟩ := refusal_none runs
      · cases h'
      · refine .inr (.inr ⟨?_, rule.symm⟩)
        cases hl : s.regs.life <;> simp_all
      · exact absurd rfl h'

/-! ## CONFIGURE -/

theorem portOpen_eq (chip : ChipId) (s : State) :
    portOpen chip s =
      (s.env.opens.nth Config.freeOpen 0,
        { s with
          port := match s.env.opens.nth Config.freeOpen 0 with
            | .ok => some { chip := chip, claims := [] }
            | .openFail => none
          trace := s.trace ++ [.openPort chip (s.env.opens.nth Config.freeOpen 0)]
          env := { s.env with opens := s.env.opens.drop 1 } }) := by
  cases answer : s.env.opens.nth Config.freeOpen 0 <;> simp only [portOpen, emit, Supply.next_eq, answer]

/-- The state after CONFIGURE, before the response, when a claim failed: everything is unwound. -/
def unwound (s : State) (es : List PortEvent) (claims : Nat) : State :=
  { s with
    regs := { s.regs with clk := .undriven }
    port := none
    trace := s.trace ++ es
    env := { s.env with opens := s.env.opens.drop 1, claims := s.env.claims.drop claims } }

/-- CONFIGURE when the open fails. -/
theorem configureSession_openFail {chip : ChipId} {clk dat : PinId} {s : State}
    (h0 : s.env.opens.nth Config.freeOpen 0 = .openFail) :
    configureSession chip clk dat s =
      respond .gpioOpenError 0
        { s with
          port := none
          trace := s.trace ++ [.openPort chip .openFail]
          env := { s.env with opens := s.env.opens.drop 1 } } := by
  simp only [configureSession, portOpen_eq, h0]

/-- CONFIGURE when the claim of the data pin fails. -/
theorem configureSession_inputFail {chip : ChipId} {clk dat : PinId} {s : State}
    (h0 : s.env.opens.nth Config.freeOpen 0 = .ok) (h1 : s.env.claims.nth Config.freeClaim 0 = .claimFail) :
    configureSession chip clk dat s =
      respond .gpioClaimError 0
        (unwound s [.openPort chip .ok, .claimIn dat .claimFail, .closePort] 1) := by
  simp [configureSession, portOpen_eq, h0, portClaimIn, drawClaim, alreadyClaimed, h1, portClose, emit, unwound]

/-- CONFIGURE when both pins are the same: the second claim is forced to fail (20_memory.md R41). -/
theorem configureSession_samePin {chip : ChipId} {pin : PinId} {s : State}
    (h0 : s.env.opens.nth Config.freeOpen 0 = .ok) (h1 : s.env.claims.nth Config.freeClaim 0 = .ok) :
    configureSession chip pin pin s =
      respond .gpioClaimError 0
        (unwound s [.openPort chip .ok, .claimIn pin .ok, .claimOut pin .claimFail, .closePort] 1) := by
  simp [configureSession, portOpen_eq, h0, portClaimIn, portClaimOut, drawClaim, alreadyClaimed, h1, portClose, emit,
    Handle.addClaim, unwound]

/-- CONFIGURE when the claim of the clock pin fails. -/
theorem configureSession_outputFail {chip : ChipId} {clk dat : PinId} {s : State} (ne : dat ≠ clk)
    (h0 : s.env.opens.nth Config.freeOpen 0 = .ok) (h1 : s.env.claims.nth Config.freeClaim 0 = .ok)
    (h2 : s.env.claims.nth Config.freeClaim 1 = .claimFail) :
    configureSession chip clk dat s =
      respond .gpioClaimError 0
        (unwound s [.openPort chip .ok, .claimIn dat .ok, .claimOut clk .claimFail, .closePort] 2) := by
  simp [configureSession, portOpen_eq, h0, portClaimIn, portClaimOut, drawClaim, alreadyClaimed, h1, h2, portClose,
    emit, Handle.addClaim, unwound, ne]

/-- CONFIGURE when everything is granted. -/
theorem configureSession_ok {chip : ChipId} {clk dat : PinId} {s : State} (ne : dat ≠ clk)
    (h0 : s.env.opens.nth Config.freeOpen 0 = .ok) (h1 : s.env.claims.nth Config.freeClaim 0 = .ok)
    (h2 : s.env.claims.nth Config.freeClaim 1 = .ok) :
    configureSession chip clk dat s =
      respond .ok 0
        { s with
          regs := { s.regs with
            dataPin := some dat, clockPin := some clk, chipId := some chip
            portOpen := true, pwr := .awake, life := .ready, clk := .driven false }
          port := some
            { chip := chip, claims := [{ pin := dat, dir := .input }, { pin := clk, dir := .output }] }
          trace := s.trace ++ [.openPort chip .ok, .claimIn dat .ok, .claimOut clk .ok, .write clk false]
          env := { s.env with opens := s.env.opens.drop 1, claims := s.env.claims.drop 2 } } := by
  simp [configureSession, portOpen_eq, h0, portClaimIn, portClaimOut, drawClaim, alreadyClaimed, h1, h2, emit,
    Handle.addClaim, openSession, pinWrite, ne]

theorem execConfigure_cases {chip : ChipId} {clk dat : PinId} {s t : State}
    (h : execConfigure chip clk dat s = .next t) :
    Refused .configure s t ∨
      (s.regs.life = .uninit ∧
        ((t = respond .gpioOpenError 0
            { s with
              port := none
              trace := s.trace ++ [.openPort chip .openFail]
              env := { s.env with opens := s.env.opens.drop 1 } }) ∨
          (∃ claims, t = respond .gpioClaimError 0
            (unwound s [.openPort chip .ok, .claimIn dat .claimFail, .closePort] claims)) ∨
          (∃ claims, t = respond .gpioClaimError 0
            (unwound s [.openPort chip .ok, .claimIn dat .ok, .claimOut clk .claimFail, .closePort] claims)) ∨
          (dat ≠ clk ∧ t = respond .ok 0
            { s with
              regs := { s.regs with
                dataPin := some dat, clockPin := some clk, chipId := some chip
                portOpen := true, pwr := .awake, life := .ready, clk := .driven false }
              port := some
                { chip := chip, claims := [{ pin := dat, dir := .input }, { pin := clk, dir := .output }] }
              trace := s.trace ++ [.openPort chip .ok, .claimIn dat .ok, .claimOut clk .ok, .write clk false]
              env := { s.env with opens := s.env.opens.drop 1, claims := s.env.claims.drop 2 } }))) := by
  rcases dispatch_cases h with refused | ⟨runs, rule⟩
  · exact .inl refused
  · obtain ⟨-, uninit⟩ | ⟨h', -⟩ | ⟨h', -⟩ := refusal_none runs
    · simp only [Host.Outcome.next.injEq] at rule
      refine .inr ⟨uninit, ?_⟩
      subst rule
      cases h0 : s.env.opens.nth Config.freeOpen 0 with
      | openFail => exact .inl (configureSession_openFail h0)
      | ok =>
        cases h1 : s.env.claims.nth Config.freeClaim 0 with
        | claimFail => exact .inr (.inl ⟨1, configureSession_inputFail h0 h1⟩)
        | ok =>
          by_cases same : dat = clk
          · subst same
            exact .inr (.inr (.inl ⟨1, configureSession_samePin h0 h1⟩))
          · cases h2 : s.env.claims.nth Config.freeClaim 1 with
            | claimFail => exact .inr (.inr (.inl ⟨2, configureSession_outputFail same h0 h1 h2⟩))
            | ok => exact .inr (.inr (.inr ⟨same, configureSession_ok same h0 h1 h2⟩))
    · cases h'
    · exact absurd rfl h'

/-! ## Every command -/

/-- Every command goes through DISPATCH under its own opcode (44_lifecycle.md R118). -/
theorem exec_eq_dispatch (i : Instr) : ∃ rule, ∀ s, exec i s = dispatch i.opcode s rule := by
  cases i <;> exact ⟨_, fun _ => rfl⟩

/-- A command that answers a next state ends with one response, whose RESULT is 0 unless it is GET_WEIGHT with STATUS OK
(30_encoding.md R62, 60_exceptions.md R142). -/
theorem exec_responds {i : Instr} {s t : State} (h : exec i s = .next t) :
    ∃ st result u, t = respond st result u ∧ u.commands = s.commands ∧ u.responses = s.responses ∧
      (result ≠ 0 → st = .ok ∧ ∃ nm1, i = .getWeight nm1) := by
  cases i with
  | configure =>
    rcases execConfigure_cases h with ⟨_, _, rfl⟩ | ⟨_, rfl | ⟨_, rfl⟩ | ⟨_, rfl⟩ | ⟨_, rfl⟩⟩ <;>
      exact ⟨_, _, _, rfl, rfl, rfl, by simp⟩
  | setReadingFormat =>
    rcases execSetReadingFormat_cases h with ⟨_, _, rfl⟩ | ⟨_, _, _, _, _, rfl⟩ | ⟨_, _, rfl⟩ <;>
      exact ⟨_, _, _, rfl, rfl, rfl, by simp⟩
  | setReferenceUnit =>
    rcases execSetReferenceUnit_cases h with ⟨_, _, rfl⟩ | ⟨_, _, rfl⟩ | ⟨_, _, rfl⟩ <;>
      exact ⟨_, _, _, rfl, rfl, rfl, by simp⟩
  | tare =>
    rcases execTare_cases h with ⟨_, _, rfl⟩ | ⟨_, _, _, _, _, ⟨_, _, _, all, rfl⟩ | ⟨_, stop, rfl, _⟩⟩
    · exact ⟨_, _, _, rfl, rfl, rfl, by simp⟩
    · obtain ⟨_, _, _, rfl⟩ := all.frame (Nat.succ_pos _)
      exact ⟨_, _, _, rfl, rfl, rfl, by simp⟩
    · obtain ⟨_, _, _, _, _, rfl⟩ := stop.frame
      exact ⟨_, _, _, rfl, rfl, rfl, by simp⟩
  | getWeight =>
    rcases execGetWeight_cases h with
      ⟨_, _, rfl⟩ | ⟨_, _, ⟨_, rfl⟩ | ⟨_, _, _, _, ⟨_, _, _, all, rfl⟩ | ⟨_, stop, rfl, _⟩⟩⟩
    · exact ⟨_, _, _, rfl, rfl, rfl, by simp⟩
    · exact ⟨_, _, _, rfl, rfl, rfl, by simp⟩
    · obtain ⟨_, _, _, rfl⟩ := all.frame (Nat.succ_pos _)
      unfold respondWeight
      split <;> exact ⟨_, _, _, rfl, rfl, rfl, by simp⟩
    · obtain ⟨_, _, _, _, _, rfl⟩ := stop.frame
      exact ⟨_, _, _, rfl, rfl, rfl, by simp⟩
  | powerDown =>
    rcases execPowerDown_cases h with ⟨_, _, rfl⟩ | ⟨_, _, _, rfl⟩ <;> exact ⟨_, _, _, rfl, rfl, rfl, by simp⟩
  | powerUp =>
    rcases execPowerUp_cases h with ⟨_, _, rfl⟩ | ⟨_, _, _, rfl⟩ <;> exact ⟨_, _, _, rfl, rfl, rfl, by simp⟩
  | close =>
    rcases execClose_cases h with ⟨_, _, rfl⟩ | ⟨_, _, _, rfl⟩ | ⟨_, rfl⟩ <;>
      exact ⟨_, _, _, rfl, rfl, rfl, by simp⟩
  | setGainChannel =>
    rcases execSetGainChannel_cases h with ⟨_, _, rfl⟩ | ⟨_, _, _, rfl⟩ | ⟨_, _, rfl⟩ <;>
      exact ⟨_, _, _, rfl, rfl, rfl, by simp⟩

/-! ## The step -/

/-- What a step that answers a next state has done: waited, answered an ILLEGAL word, or run a decoded command. -/
theorem step_cases {s t : State} (h : step s = .next t) :
    (s.commands = [] ∧ t = s) ∨
      ∃ c rest, s.commands = c :: rest ∧
        ((decode c = none ∧ t = respond .illegalCommand 0 { s with commands := rest }) ∨
          ∃ i, decode c = some i ∧ exec i { s with commands := rest } = .next t) := by
  unfold step at h
  cases hc : s.commands with
  | nil =>
    rw [takeCommand_nil hc] at h
    cases h
    exact .inl ⟨rfl, rfl⟩
  | cons c rest =>
    rw [takeCommand_cons hc] at h
    refine .inr ⟨c, rest, rfl, ?_⟩
    cases hd : decode c with
    | none =>
      simp only [hd, execIllegal, raise, complete, Host.Outcome.next.injEq] at h
      exact .inl ⟨rfl, h.symm⟩
    | some i =>
      simp only [hd] at h
      exact .inr ⟨i, rfl, h⟩

end Sys2Proof.Machine
end

