-- ==== Sys2Proof/Laws/Decode.lean ====
section
/-!
SUPPORT. The opcode map picks one row: a word that selects a row carries its opcode, and decoding reads that row.
-/

namespace Sys2Proof

/-- A word that selects a row has the row's opcode in CMD[31:24] (30_encoding.md R69). -/
theorem code_of_selects {op : Opcode} {w : Word} (h : op.selects w = true) : w.extractLsb' 24 8 = op.code := by
  have h' : w &&& op.mask = op.pattern := by simpa [Opcode.selects] using h
  have top : (w &&& op.mask).extractLsb' 24 8 = op.code := by
    rw [h']
    cases op <;> decide
  have mask : op.mask.extractLsb' 24 8 = BitVec.allOnes 8 := by cases op <;> decide
  rwa [BitVec.extractLsb'_and, mask, BitVec.and_allOnes] at top

theorem code_injective {op op' : Opcode} (h : op.code = op'.code) : op = op' := by
  cases op <;> cases op' <;> first | rfl | exact absurd h (by decide)

/-- At most one row matches any word (30_encoding.md R69). -/
theorem selects_unique {op op' : Opcode} {w : Word} (h : op.selects w = true) (h' : op'.selects w = true) :
    op = op' :=
  code_injective ((code_of_selects h).symm.trans (code_of_selects h'))

theorem mem_all (op : Opcode) : op ∈ Opcode.all := by cases op <;> decide

/-- A word that selects a row decodes to that row's operation. -/
theorem decode_of_selects {op : Opcode} {c : Command} (h : op.selects c.cmd = true) :
    decode c = some (op.operands c) := by
  cases hf : Opcode.all.find? fun op => op.selects c.cmd with
  | none => exact absurd h (by simpa using List.find?_eq_none.mp hf op (mem_all op))
  | some op' =>
    have h' : op'.selects c.cmd = true := by simpa using List.find?_some hf
    obtain rfl := selects_unique h h'
    simp [decode, hf]

/-- What decodes selects a row, and is that row's reading of the word. -/
theorem selects_of_decode {c : Command} {i : Instr} (h : decode c = some i) :
    ∃ op : Opcode, op.selects c.cmd = true ∧ i = op.operands c := by
  simp only [decode, Option.map_eq_some_iff] at h
  obtain ⟨op, hf, rfl⟩ := h
  exact ⟨op, by simpa using List.find?_some hf, rfl⟩

theorem decode_eq_none {c : Command} (h : ∀ op : Opcode, op.selects c.cmd = false) : decode c = none := by
  cases hd : decode c with
  | none => rfl
  | some i =>
    obtain ⟨op, hs, -⟩ := selects_of_decode hd
    simp [h op] at hs

/-! ## The bits of an encoded word -/

/-- Bits 31..24 of an encoded word are its opcode, bits 23..0 its format's fields (30_encoding.md R59). -/
theorem getLsbD_encode (i : Instr) (k : Nat) :
    (encode i).cmd.getLsbD k = if k < 24 then i.fields.getLsbD k else i.opcode.code.getLsbD (k - 24) :=
  (BitVec.getLsbD_append (x := i.opcode.code) (y := i.fields)).trans (by split <;> simp_all)

/-- The fields of format C (30_encoding.md R64). -/
theorem getLsbD_fields_configure (chip : ChipId) (clk dat : PinId) (k : Nat) :
    (Instr.configure chip clk dat).fields.getLsbD k =
      if k < 8 then dat.getLsbD k else if k < 16 then clk.getLsbD (k - 8) else chip.getLsbD (k - 16) := by
  refine (BitVec.getLsbD_append (x := chip ++ clk) (y := dat)).trans ?_
  rw [BitVec.getLsbD_append, Nat.sub_sub]
  by_cases h8 : k < 8
  · simp [h8]
  · simp [h8, show k - 8 < 8 ↔ k < 16 by omega]

/-- The fields of format F (30_encoding.md R65). -/
theorem getLsbD_fields_setReadingFormat (bito byteo : BitVec 2) (k : Nat) :
    (Instr.setReadingFormat bito byteo).fields.getLsbD k =
      if k < 2 then byteo.getLsbD k else if k < 4 then bito.getLsbD (k - 2) else false := by
  refine (BitVec.getLsbD_append (x := (0 : BitVec 20) ++ bito) (y := byteo)).trans ?_
  rw [BitVec.getLsbD_append]
  by_cases h2 : k < 2
  · simp [h2]
  · simp [h2, show k - 2 < 2 ↔ k < 4 by omega]

/-- The fields of format K (30_encoding.md R67). -/
theorem getLsbD_fields_count (nm1 : BitVec 16) (k : Nat) :
    ((0 : BitVec 8) ++ nm1).getLsbD k = if k < 16 then nm1.getLsbD k else false := by
  rw [BitVec.getLsbD_append]
  split <;> simp_all

/-- The fields of format G (30_encoding.md R66). -/
theorem getLsbD_fields_setGainChannel (gc : BitVec 2) (k : Nat) :
    (Instr.setGainChannel gc).fields.getLsbD k = if k < 2 then gc.getLsbD k else false := by
  refine (BitVec.getLsbD_append (x := (0 : BitVec 22)) (y := gc)).trans ?_
  split <;> simp_all

@[simp] theorem opcode_operands (op : Opcode) (c : Command) : (op.operands c).opcode = op := by
  cases op <;> rfl

end Sys2Proof
end

