-- ==== Sys2Proof/Laws/Effects.lean ====
section
/-!
SUPPORT. All that a command can do to the registers, the port and the trace, as one case distinction. Whole-machine
claims go through `exec_effect` and `step_effect` by cases on `Effect`.
-/

namespace Sys2Proof.Machine

/-! ## The events of the READs of one command -/

/-- The events of one READ that captures a Sample: `r.1` reads answering 1, the read answering 0, then the pulses, those of
the data phase sampling `r.2` (40_serial_reader.md R78, R81, R82). -/
def readEvents (d c : PinId) (p : Nat) (r : Nat × (Nat → Level)) : List PortEvent :=
  waitEvents d r.1 ++ [.read d false] ++ dataEvents d c r.2 ++ selectorEvents c (p - 24)

theorem readSample_some {d c : PinId} {p : Nat} {s t : State} {x : Int} (h : readSample d c p s = (some x, t)) :
    ∃ r levels, t = afterRead s (.driven false) (readEvents d c p r) levels 1 := by
  rcases readSample_cases d c p s with ⟨k, _, -, -, -, -, run⟩ | ⟨-, run⟩ <;> rw [run] at h <;> cases h
  exact ⟨(k, fun i => s.levelAt (k + 1 + i)), _, rfl⟩

theorem readSample_none {d c : PinId} {p : Nat} {s t : State} (h : readSample d c p s = (none, t)) :
    ∃ k levels, 1 ≤ k ∧ t = afterRead s s.regs.clk (waitEvents d k) levels 1 := by
  rcases readSample_cases d c p s with ⟨_, _, -, -, -, -, run⟩ | ⟨-, run⟩ <;> rw [run] at h <;> cases h
  exact ⟨_, _, Nat.succ_pos _, rfl⟩

/-- The clock after some number of completed READs. -/
def clockAfter (clk : Wire) (reads : List (Nat × (Nat → Level))) : Wire :=
  if reads = [] then clk else .driven false

theorem readsDone_events {d c : PinId} {p : Nat} {xs : List Int} {s u : State} (done : ReadsDone d c p xs s u) :
    ∃ reads levels deadlines, reads.length = xs.length ∧
      u = afterRead s (clockAfter s.regs.clk reads) (reads.flatMap (readEvents d c p)) levels deadlines := by
  induction xs generalizing s with
  | nil => exact ⟨[], 0, 0, rfl, by simpa [ReadsDone, clockAfter, afterRead_zero] using done.symm⟩
  | cons x xs ih =>
    obtain ⟨v, read, rest⟩ := done
    obtain ⟨r, levels, rfl⟩ := readSample_some read
    obtain ⟨reads, levels', deadlines', len, frame⟩ := ih rest
    refine ⟨r :: reads, levels + levels', 1 + deadlines', by simp [len], ?_⟩
    rw [frame]
    simp [clockAfter]

/-! ## The effect of a command -/

/-- What a command `i` in state `s` can do: its status, the registers and the port after it, and its events. -/
inductive Effect (i : Instr) (s : State) : Status → Regs → Option Handle → List PortEvent → Prop where
  | refused (st : Status) (h : refusal i.opcode s.regs.life s.regs.pwr = some st) : Effect i s st s.regs s.port []
  | openFail (chip : ChipId) (clk dat : PinId) (hi : i = .configure chip clk dat) (uninit : s.regs.life = .uninit) :
      Effect i s .gpioOpenError s.regs none [.openPort chip .openFail]
  | inputFail (chip : ChipId) (clk dat : PinId) (hi : i = .configure chip clk dat) (uninit : s.regs.life = .uninit) :
      Effect i s .gpioClaimError { s.regs with clk := .undriven } none
        [.openPort chip .ok, .claimIn dat .claimFail, .closePort]
  | outputFail (chip : ChipId) (clk dat : PinId) (hi : i = .configure chip clk dat) (uninit : s.regs.life = .uninit) :
      Effect i s .gpioClaimError { s.regs with clk := .undriven } none
        [.openPort chip .ok, .claimIn dat .ok, .claimOut clk .claimFail, .closePort]
  | configured (chip : ChipId) (clk dat : PinId) (hi : i = .configure chip clk dat) (uninit : s.regs.life = .uninit)
      (ne : dat ≠ clk) :
      Effect i s .ok
        { s.regs with
          dataPin := some dat, clockPin := some clk, chipId := some chip
          portOpen := true, pwr := .awake, life := .ready, clk := .driven false }
        (some { chip := chip, claims := [{ pin := dat, dir := .input }, { pin := clk, dir := .output }] })
        [.openPort chip .ok, .claimIn dat .ok, .claimOut clk .ok, .write clk false]
  | formatSet (bito byteo : BitVec 2) (byte bit : Order) (hi : i = .setReadingFormat bito byteo)
      (ready : s.regs.life = .ready) :
      Effect i s .ok { s.regs with byteOrder := byte, bitOrder := bit } s.port []
  | formatInvalid (bito byteo : BitVec 2) (hi : i = .setReadingFormat bito byteo) (ready : s.regs.life = .ready) :
      Effect i s .invalidFormat s.regs s.port []
  | unitSet (u : F64) (hi : i = .setReferenceUnit u) (ready : s.regs.life = .ready) (nonzero : f64IsZero u = false) :
      Effect i s .ok { s.regs with refUnit := u } s.port []
  | unitInvalid (u : F64) (hi : i = .setReferenceUnit u) (ready : s.regs.life = .ready) (zero : f64IsZero u = true) :
      Effect i s .invalidReferenceUnit s.regs s.port []
  | gainSet (gc : BitVec 2) (g : Gain) (hi : i = .setGainChannel gc) (ready : s.regs.life = .ready) :
      Effect i s .ok { s.regs with gain := g } s.port []
  | gainInvalid (gc : BitVec 2) (hi : i = .setGainChannel gc) (ready : s.regs.life = .ready) :
      Effect i s .invalidFormat s.regs s.port []
  | tared (nm1 : BitVec 16) (d c : PinId) (xs : List Int) (reads : List (Nat × (Nat → Level))) (hi : i = .tare nm1)
      (ready : s.regs.life = .ready) (awake : s.regs.pwr = .awake) (hd : s.regs.dataPin = some d)
      (hc : s.regs.clockPin = some c) (xsLength : xs.length = sampleCount nm1)
      (samples : ∃ u, ReadsDone d c (pulsesPerRead s.regs.gain) xs s u)
      (someReads : reads ≠ []) :
      Effect i s .ok { s.regs with offset := meanOf xs.sum (sampleCount nm1), clk := .driven false } s.port
        (reads.flatMap (readEvents d c (pulsesPerRead s.regs.gain)))
  | weighed (nm1 : BitVec 16) (d c : PinId) (reads : List (Nat × (Nat → Level))) (hi : i = .getWeight nm1)
      (ready : s.regs.life = .ready) (awake : s.regs.pwr = .awake) (hd : s.regs.dataPin = some d)
      (hc : s.regs.clockPin = some c) (someReads : reads ≠ []) :
      Effect i s .ok { s.regs with clk := .driven false } s.port
        (reads.flatMap (readEvents d c (pulsesPerRead s.regs.gain)))
  | timedOut (d c : PinId) (k : Nat) (reads : List (Nat × (Nat → Level)))
      (hi : i.opcode = .tare ∨ i.opcode = .getWeight) (ready : s.regs.life = .ready) (awake : s.regs.pwr = .awake)
      (hd : s.regs.dataPin = some d)
      (hc : s.regs.clockPin = some c ∨ s.regs.clockPin = none ∧ reads = []) (someWait : 1 ≤ k) :
      Effect i s .sensorTimeout { s.regs with clk := clockAfter s.regs.clk reads } s.port
        (reads.flatMap (readEvents d c (pulsesPerRead s.regs.gain)) ++ waitEvents d k)
  | weightInvalid (nm1 : BitVec 16) (hi : i = .getWeight nm1) (ready : s.regs.life = .ready)
      (zero : f64IsZero s.regs.refUnit = true) :
      Effect i s .invalidReferenceUnit s.regs s.port []
  | slept (c : PinId) (hi : i = .powerDown) (ready : s.regs.life = .ready) (hc : s.regs.clockPin = some c) :
      Effect i s .ok { s.regs with pwr := .asleep, clk := .driven true } s.port [.write c true, .hold c .pdHold]
  | woken (c : PinId) (hi : i = .powerUp) (ready : s.regs.life = .ready) (hc : s.regs.clockPin = some c) :
      Effect i s .ok { s.regs with pwr := .awake, clk := .driven false } s.port [.write c false]
  | closed (c : PinId) (hi : i = .close) (ready : s.regs.life = .ready) (hc : s.regs.clockPin = some c) :
      Effect i s .ok { s.regs with portOpen := false, pwr := .awake, life := .closed, clk := .undriven } none
        [.write c false, .closePort]
  | closedUnused (hi : i = .close) (uninit : s.regs.life = .uninit) :
      Effect i s .ok { s.regs with life := .closed } s.port []

/-- The state `t` after a command with some effect from `s`, and its response. -/
def Happened (i : Instr) (s t : State) : Prop :=
  ∃ st es result, Effect i s st t.regs t.port es ∧ t.trace = s.trace ++ es ∧ t.commands = s.commands ∧
    t.responses = s.responses ++ [{ resp := respWord st t.regs.life t.regs.pwr, result := result }]

/-- A response after a known effect. -/
theorem happened_respond {i : Instr} {s u : State} {st : Status} {es : List PortEvent} (result : F64)
    (effect : Effect i s st u.regs u.port es) (trace : u.trace = s.trace ++ es) (commands : u.commands = s.commands)
    (responses : u.responses = s.responses) : Happened i s (respond st result u) :=
  ⟨st, es, result, effect, trace, commands, by simp [responses]⟩

theorem happened_refused {i : Instr} {s t : State} (h : Refused i.opcode s t) : Happened i s t := by
  obtain ⟨st, run, rfl⟩ := h
  exact happened_respond _ (.refused st run) (by simp) rfl rfl

/-- What TARE and GET_WEIGHT do when a READ times out. -/
theorem happened_timedOut {i : Instr} {s t : State} {n : Nat} {d c : PinId}
    (hi : i.opcode = .tare ∨ i.opcode = .getWeight) (ready : s.regs.life = .ready) (awake : s.regs.pwr = .awake)
    (hd : s.regs.dataPin = some d) (stop : TimedOut n d c s t)
    (hc : s.regs.clockPin = some c ∨
      s.regs.clockPin = none ∧ readSample d c (pulsesPerRead s.regs.gain) s = (none, t)) :
    Happened i s (respond .sensorTimeout 0 t) := by
  rcases hc with hc | ⟨hc, first⟩
  on_goal 2 =>
    obtain ⟨k, levels, hk, rfl⟩ := readSample_none first
    exact happened_respond _ (.timedOut d c k [] hi ready awake hd (.inr ⟨hc, rfl⟩) hk) (by simp) rfl rfl
  obtain ⟨xs, u, -, done, last⟩ := stop
  obtain ⟨reads, levels, deadlines, -, rfl⟩ := readsDone_events done
  obtain ⟨k, levels', hk, rfl⟩ := readSample_none last
  exact happened_respond _ (.timedOut d c k reads hi ready awake hd (.inl hc) hk) (by simp) rfl rfl

/-- Every command that answers a next state has one of the effects, and sends its response. -/
theorem exec_effect {i : Instr} {s t : State} (h : exec i s = .next t) : Happened i s t := by
  cases i with
  | configure chip clk dat =>
    rcases execConfigure_cases h with ref | ⟨uninit, rfl | ⟨_, rfl⟩ | ⟨_, rfl⟩ | ⟨ne, rfl⟩⟩
    · exact happened_refused ref
    · exact happened_respond _ (.openFail chip clk dat rfl uninit) rfl rfl rfl
    · exact happened_respond _ (.inputFail chip clk dat rfl uninit) rfl rfl rfl
    · exact happened_respond _ (.outputFail chip clk dat rfl uninit) rfl rfl rfl
    · exact happened_respond _ (.configured chip clk dat rfl uninit ne) rfl rfl rfl
  | setReadingFormat bito byteo =>
    rcases execSetReadingFormat_cases h with ref | ⟨ready, byte, bit, -, -, rfl⟩ | ⟨ready, -, rfl⟩
    · exact happened_refused ref
    · exact happened_respond _ (.formatSet bito byteo byte bit rfl ready) (by simp) rfl rfl
    · exact happened_respond _ (.formatInvalid bito byteo rfl ready) (by simp) rfl rfl
  | setReferenceUnit u =>
    rcases execSetReferenceUnit_cases h with ref | ⟨ready, nonzero, rfl⟩ | ⟨ready, zero, rfl⟩
    · exact happened_refused ref
    · exact happened_respond _ (.unitSet u rfl ready nonzero) (by simp) rfl rfl
    · exact happened_respond _ (.unitInvalid u rfl ready zero) (by simp) rfl rfl
  | tare nm1 =>
    rcases execTare_cases h with ref | ⟨ready, awake, d, c, hd, ⟨hc, xs, u, all, rfl⟩ | ⟨u, stop, rfl, hc⟩⟩
    · exact happened_refused ref
    · obtain ⟨reads, levels, deadlines, len, rfl⟩ := readsDone_events all.2
      have someReads : reads ≠ [] := by
        rintro rfl
        exact absurd (len.trans all.1) (Nat.succ_ne_zero _).symm
      refine happened_respond _ ?_ rfl rfl rfl
      have effect := Effect.tared nm1 d c xs reads rfl ready awake hd hc all.1 ⟨_, all.2⟩ someReads
      simpa [clockAfter, someReads] using effect
    · exact happened_timedOut (.inl rfl) ready awake hd stop hc
  | getWeight nm1 =>
    rcases execGetWeight_cases h with
      ref | ⟨ready, awake, ⟨zero, rfl⟩ | ⟨-, d, c, hd, ⟨hc, xs, u, all, h⟩ | ⟨u, stop, rfl, hc⟩⟩⟩
    · exact happened_refused ref
    · exact happened_respond _ (.weightInvalid nm1 rfl ready zero) (by simp) rfl rfl
    · obtain ⟨reads, levels, deadlines, len, rfl⟩ := readsDone_events all.2
      have someReads : reads ≠ [] := by
        rintro rfl
        exact absurd (len.trans all.1) (Nat.succ_ne_zero _).symm
      have effect := Effect.weighed nm1 d c reads rfl ready awake hd hc someReads
      subst h
      unfold respondWeight
      split
      · exact happened_respond _ (by simpa [clockAfter, someReads] using effect) rfl rfl rfl
      · exact happened_respond _ (by simpa [clockAfter, someReads] using effect) rfl rfl rfl
    · exact happened_timedOut (.inr rfl) ready awake hd stop hc
  | powerDown =>
    rcases execPowerDown_cases h with ref | ⟨ready, c, hc, rfl⟩
    · exact happened_refused ref
    · exact happened_respond _ (.slept c rfl ready hc) rfl rfl rfl
  | powerUp =>
    rcases execPowerUp_cases h with ref | ⟨ready, c, hc, rfl⟩
    · exact happened_refused ref
    · exact happened_respond _ (.woken c rfl ready hc) rfl rfl rfl
  | close =>
    rcases execClose_cases h with ref | ⟨ready, c, hc, rfl⟩ | ⟨uninit, rfl⟩
    · exact happened_refused ref
    · exact happened_respond _ (.closed c rfl ready hc) rfl rfl rfl
    · exact happened_respond _ (.closedUnused rfl uninit) (by simp) rfl rfl
  | setGainChannel gc =>
    rcases execSetGainChannel_cases h with ref | ⟨ready, g, -, rfl⟩ | ⟨ready, -, rfl⟩
    · exact happened_refused ref
    · exact happened_respond _ (.gainSet gc g rfl ready) (by simp) rfl rfl
    · exact happened_respond _ (.gainInvalid gc rfl ready) (by simp) rfl rfl

/-- A step that answers a next state has waited, answered an ILLEGAL word, or run a command with one of the effects. -/
theorem step_effect {s t : State} (h : step s = .next t) :
    (s.commands = [] ∧ t = s) ∨
      ∃ c rest, s.commands = c :: rest ∧
        ((decode c = none ∧ t = respond .illegalCommand 0 { s with commands := rest }) ∨
          ∃ i, decode c = some i ∧ Happened i { s with commands := rest } t) := by
  rcases step_cases h with wait | ⟨c, rest, hc, ill | ⟨i, hd, run⟩⟩
  · exact .inl wait
  · exact .inr ⟨c, rest, hc, .inl ill⟩
  · exact .inr ⟨c, rest, hc, .inr ⟨i, hd, exec_effect run⟩⟩

end Sys2Proof.Machine
end

