-- ==== Sys2Proof/Laws/PerInstr.lean ====
section
/-!
SUPPORT. Per instruction: the word the encoder writes selects the instruction's own row of the opcode map
(30_encoding.md R69), with every must-be-zero bit 0, and ARG is 0 but for SET_REFERENCE_UNIT (R75).
-/

namespace Sys2Proof.Laws.RowMatch

/-- The encoded word selects the instruction's row, and ARG is 0 where it has no meaning. -/
def Statement (i : Instr) : Prop :=
  i.opcode.selects (encode i).cmd = true ∧ (i.opcode ≠ .setReferenceUnit → (encode i).arg = 0)

/-- Two words are equal when their 32 bits are. -/
theorem word_ext {v w : Word} (h : ∀ i < 32, v.getLsbD i = w.getLsbD i) : v = w :=
  BitVec.eq_of_getLsbD_eq h

theorem configure (chip : ChipId) (clk dat : PinId) : Statement (.configure chip clk dat) := by
  refine ⟨beq_iff_eq.mpr (word_ext fun i hi => ?_), fun _ => rfl⟩
  rw [BitVec.getLsbD_and, getLsbD_encode]
  simp only [getLsbD_fields_configure]
  interval_cases i <;> simp [Instr.opcode, Opcode.code, Opcode.mask, Opcode.pattern]

theorem setReadingFormat (bito byteo : BitVec 2) : Statement (.setReadingFormat bito byteo) := by
  refine ⟨beq_iff_eq.mpr (word_ext fun i hi => ?_), fun _ => rfl⟩
  rw [BitVec.getLsbD_and, getLsbD_encode]
  simp only [getLsbD_fields_setReadingFormat]
  interval_cases i <;> simp [Instr.opcode, Opcode.code, Opcode.mask, Opcode.pattern]

theorem setReferenceUnit (u : F64) : Statement (.setReferenceUnit u) :=
  ⟨show Opcode.setReferenceUnit.selects (0x03#8 ++ 0#24) = true by decide, fun h => absurd rfl h⟩

theorem tare (nm1 : BitVec 16) : Statement (.tare nm1) := by
  refine ⟨beq_iff_eq.mpr (word_ext fun i hi => ?_), fun _ => rfl⟩
  rw [BitVec.getLsbD_and, getLsbD_encode]
  simp only [Instr.fields, getLsbD_fields_count]
  interval_cases i <;> simp [Instr.opcode, Opcode.code, Opcode.mask, Opcode.pattern]

theorem getWeight (nm1 : BitVec 16) : Statement (.getWeight nm1) := by
  refine ⟨beq_iff_eq.mpr (word_ext fun i hi => ?_), fun _ => rfl⟩
  rw [BitVec.getLsbD_and, getLsbD_encode]
  simp only [Instr.fields, getLsbD_fields_count]
  interval_cases i <;> simp [Instr.opcode, Opcode.code, Opcode.mask, Opcode.pattern]

theorem powerDown : Statement .powerDown := ⟨by decide, fun _ => rfl⟩

theorem powerUp : Statement .powerUp := ⟨by decide, fun _ => rfl⟩

theorem close : Statement .close := ⟨by decide, fun _ => rfl⟩

theorem setGainChannel (gc : BitVec 2) : Statement (.setGainChannel gc) := by
  refine ⟨beq_iff_eq.mpr (word_ext fun i hi => ?_), fun _ => rfl⟩
  rw [BitVec.getLsbD_and, getLsbD_encode]
  simp only [getLsbD_fields_setGainChannel]
  interval_cases i <;> simp [Instr.opcode, Opcode.code, Opcode.mask, Opcode.pattern]

end Sys2Proof.Laws.RowMatch
end

