-- ==== Sys2Proof/Laws/Port.lean ====
section
/-!
SUPPORT. The port's contract over lists of events: it composes, and the events of READs keep it whenever the port holds
the two claims (20_memory.md R41 to R43).
-/

namespace Sys2Proof.Machine

theorem replay_append (v : PortView) (es es' : List PortEvent) :
    v.replay (es ++ es') = (v.replay es).bind fun u => u.replay es' := by
  induction es generalizing v with
  | nil => rfl
  | cons e es ih =>
    simp only [List.cons_append, PortView.replay]
    split <;> simp_all

/-- Holding a claim does not depend on the clock wire. -/
theorem holds_clk (port : Option Handle) (w w' : Wire) (pin : PinId) (dir : Direction) :
    ({ port := port, clk := w } : PortView).holds pin dir = ({ port := port, clk := w' } : PortView).holds pin dir :=
  rfl

section reads

variable {port : Option Handle} {d c : PinId}
  (hd : ∀ w, ({ port := port, clk := w } : PortView).holds d .input = true)
  (hc : ∀ w, ({ port := port, clk := w } : PortView).holds c .output = true)

include hd in
theorem replay_waitEvents (k : Nat) (w : Wire) :
    ({ port := port, clk := w } : PortView).replay (waitEvents d k) = some { port := port, clk := w } := by
  induction k with
  | zero => rfl
  | succ k ih =>
    simp only [waitEvents, List.replicate_succ, PortView.replay, PortView.accept] at ih ⊢
    simp [hd, ih]

include hd hc in
theorem replay_dataPulses (is : List Nat) (bit : Nat → Level) (w : Wire) :
    ({ port := port, clk := w } : PortView).replay (is.flatMap fun i => dataPulse d c (bit i)) =
      some { port := port, clk := if is = [] then w else .driven false } := by
  induction is generalizing w with
  | nil => rfl
  | cons i is ih =>
    have rest := ih (.driven false)
    simp only [List.flatMap_cons, replay_append, dataPulse, PortView.replay, PortView.accept] at rest ⊢
    simpa [hd, hc] using rest

include hc in
theorem replay_selectorPulses (is : List Nat) (w : Wire) :
    ({ port := port, clk := w } : PortView).replay (is.flatMap fun _ => [.write c true, .write c false]) =
      some { port := port, clk := if is = [] then w else .driven false } := by
  induction is generalizing w with
  | nil => rfl
  | cons i is ih =>
    have rest := ih (.driven false)
    simp only [List.flatMap_cons, replay_append, PortView.replay, PortView.accept] at rest ⊢
    simpa [hc] using rest

include hd hc in
/-- The events of one READ, with the clock left low. -/
theorem replay_readEvents (p : Nat) (r : Nat × (Nat → Level)) (w : Wire) :
    ({ port := port, clk := w } : PortView).replay (readEvents d c p r) =
      some { port := port, clk := .driven false } := by
  have ready : ({ port := port, clk := w } : PortView).replay [.read d false] = some { port := port, clk := w } := by
    simp [PortView.replay, PortView.accept, hd]
  simp only [readEvents, replay_append, replay_waitEvents hd, Option.bind_some, ready, dataEvents,
    replay_dataPulses hd hc, selectorEvents, replay_selectorPulses hc]
  simp

include hd hc in
/-- The events of the READs of one command. -/
theorem replay_reads (p : Nat) (reads : List (Nat × (Nat → Level))) (w : Wire) :
    ({ port := port, clk := w } : PortView).replay (reads.flatMap (readEvents d c p)) =
      some { port := port, clk := clockAfter w reads } := by
  induction reads generalizing w with
  | nil => rfl
  | cons r reads ih =>
    rw [List.flatMap_cons, replay_append, replay_readEvents hd hc, Option.bind_some, ih]
    simp [clockAfter]

end reads

end Sys2Proof.Machine
end

