-- ==== Sys2Proof/Tests/Slice0.lean ====
section
/-!
SUPPORT. Tests whose expected results are the spec's own vectors (95_test_vectors.md, 30_encoding.md), and for every
obligation with hypotheses the witnesses that concrete inputs meet them.
-/

namespace Sys2Proof.Tests

open Sys2Proof.Machine

set_option Elab.async false

/-! ## Small states -/

/-- READY and AWAKE with data pin 5, clock pin 6 and chip 0, the calibration as at reset. -/
def session : State :=
  { State.reset with
    regs := { Regs.reset with
      life := .ready, dataPin := some 5, clockPin := some 6, chipId := some 0
      portOpen := true, clk := .driven false }
    port := some { chip := 0, claims := [{ pin := 5, dir := .input }, { pin := 6, dir := .output }] }
    trace := [.openPort 0 .ok, .claimIn 5 .ok, .claimOut 6 .ok, .write 6 false] }

/-- The session after POWER_DOWN. -/
def asleep : State :=
  { session with
    regs := { session.regs with pwr := .asleep, clk := .driven true }
    trace := session.trace ++ [.write 6 true, .hold 6 .pdHold] }

/-- CLOSED without a session ever opened. -/
def closed : State := { State.reset with regs := { Regs.reset with life := .closed } }

/-- The 24 levels of a captured string, most significant bit first (20_memory.md R48). -/
def bits (acc : Nat) : List Level := (List.range 24).map fun i => acc.testBit (23 - i)

/-- The state with READs supplied: each with one ready read of 0, then its 24 levels. -/
def feed (accs : List Nat) (s : State) : State :=
  { s with env := { s.env with
      levels := { queue := accs.flatMap fun acc => false :: bits acc, taken := 0 }
      deadlines := { queue := accs.map fun _ => 0, taken := 0 } } }

/-- The state whose next READ reads 1 twice and then times out (95_test_vectors.md X9). -/
def silent (s : State) : State :=
  { s with env := { s.env with
      levels := { queue := [true, true], taken := 0 }
      deadlines := { queue := [1], taken := 0 } } }

/-- The state with open and claim answers supplied. -/
def granting (opens : List OpenResult) (claims : List ClaimResult) (s : State) : State :=
  { s with env := { s.env with
      opens := { queue := opens, taken := 0 }
      claims := { queue := claims, taken := 0 } } }

/-- The state with one command presented. -/
def presented (cmd : Word) (arg : F64) (s : State) : State := { s with commands := [{ cmd := cmd, arg := arg }] }

/-- What a property says of the next state; `none` after a stop. -/
def after {α : Type} (r : Result) (f : State → α) : Option α :=
  match r with
  | .next t => some (f t)
  | .fault _ => none
  | .refused _ => none

/-- The last response word. -/
def lastResp (s : State) : Option Word := s.responses.getLast?.map Response.resp

/-- The last result. -/
def lastResult (s : State) : Option F64 := s.responses.getLast?.map Response.result

/-! ## What an assembler rejects (30_encoding.md R75) -/

theorem test_wellFormed_data : (Asm.configure 256 6 0).wellFormed = false := by decide
theorem test_wellFormed_clock : (Asm.configure 5 256 0).wellFormed = false := by decide
theorem test_wellFormed_chip : (Asm.configure 5 6 256).wellFormed = false := by decide
theorem test_wellFormed_byte : (Asm.setReadingFormat 4 0).wellFormed = false := by decide
theorem test_wellFormed_bit : (Asm.setReadingFormat 0 4).wellFormed = false := by decide
theorem test_wellFormed_count_zero : (Asm.tare 0).wellFormed = false := by decide
theorem test_wellFormed_count_large : (Asm.getWeight 65537).wellFormed = false := by decide
theorem test_wellFormed_gain : (Asm.setGainChannel 4).wellFormed = false := by decide
theorem test_wellFormed_accepts : (Asm.configure 255 0 255).wellFormed = true ∧ (Asm.tare 65536).wellFormed = true ∧
    (Asm.setReadingFormat 3 3).wellFormed = true := by decide

/-- The example of 30_encoding.md R74: data=5, clock=6, chip=0 is 0x01000605. -/
theorem test_assemble_configure : assemble (.configure 5 6 0) = some { cmd := 0x01000605, arg := 0 } := by decide

/-! ## Words written out bit by bit (30_encoding.md R63 to R69) -/

/-- OPC 0x01, CHIP 1, CLK 3, DAT 2 (95_test_vectors.md P2). -/
theorem test_decode_configure :
    decode { cmd := 0b00000001_00000001_00000011_00000010, arg := 0 } = some (.configure 1 3 2) := by decide
/-- OPC 0x02, twenty zeros, BITO 01, BYTEO 10. -/
theorem test_decode_setReadingFormat :
    decode { cmd := 0b00000010_00000000000000000000_01_10, arg := 0 } = some (.setReadingFormat 1 2) := by decide
theorem test_decode_setReferenceUnit :
    decode { cmd := 0b00000011_000000000000000000000000, arg := 0xBFE0000000000000 } =
      some (.setReferenceUnit 0xBFE0000000000000) := by decide
/-- OPC 0x04, eight zeros, NM1 1111111111111110. -/
theorem test_decode_tare :
    decode { cmd := 0b00000100_00000000_1111111111111110, arg := 7 } = some (.tare 0xFFFE) := by decide
theorem test_decode_getWeight :
    decode { cmd := 0b00000101_00000000_1000000000000001, arg := 0 } = some (.getWeight 0x8001) := by decide
theorem test_decode_powerDown : decode { cmd := 0b00000110_000000000000000000000000, arg := 0 } = some .powerDown := by
  decide
theorem test_decode_powerUp : decode { cmd := 0b00000111_000000000000000000000000, arg := 0 } = some .powerUp := by
  decide
theorem test_decode_close : decode { cmd := 0b00001000_000000000000000000000000, arg := 0 } = some .close := by decide
theorem test_decode_setGainChannel :
    decode { cmd := 0b00001001_0000000000000000000000_10, arg := 0 } = some (.setGainChannel 2) := by decide

/-- The ILLEGAL words of 95_test_vectors.md 2.1. -/
theorem test_decode_illegal :
    ([0x00000000, 0x02000010, 0x03000001, 0x04010000, 0x05FFFFFF, 0x06800000, 0x07000001, 0x08000100, 0x09000004,
      0x0A000000, 0x80000000, 0xFF000000] : List Word).all fun w => (decode { cmd := w, arg := 0 }).isNone := by decide

theorem test_decodeTableWord : decodeTableWord 32 0x04000009 = some (.tare 9) ∧
    decodeTableWord 96 0x400000000000000003000000 = some (.setReferenceUnit 0x4000000000000000) ∧
    decodeTableWord 32 0x0A000000 = none := by decide

/-! ## READ (95_test_vectors.md 2.2) -/

theorem test_sample_msb : ([0x000000, 0x7FFFFF, 0x800000, 0x800001, 0xFFFFFF, 0x123456] : List Raw).map
    (decodeSample .msb) = [0, 8388607, -8388608, -8388607, -1, 1193046] := by decide
theorem test_sample_lsb : ([0x000001, 0x7FFFFF, 0xFFFFFE, 0x123456, 0x0000FF, 0xA5A5A5] : List Raw).map
    (decodeSample .lsb) = [-8388608, -2, 8388607, 6958152, -65536, -5921371] := by decide
/-- X2: the captured bits of 0x800001. -/
theorem test_read_captures : (readSample 5 6 25 (feed [0x800001] session)).1 = some (-8388607) := by decide +kernel
/-- One ready read, 24 pulses and three selector pulses are 1 + 72 + 6 primitives (95_test_vectors.md 2.4). -/
theorem test_read_primitives :
    (readSample 5 6 27 (feed [0] { session with trace := [] })).2.trace.length = 79 := by decide +kernel

/-! ## One step of each command -/

/-- 95_test_vectors.md 2.9, all OK. -/
theorem test_configure_ok :
    after (exec (.configure 0 6 5) (granting [.ok] [.ok, .ok] State.reset)) (fun t => (t.trace, lastResp t, t.regs.clk)) =
      some ([.openPort 0 .ok, .claimIn 5 .ok, .claimOut 6 .ok, .write 6 false], some 0x10, .driven false) := by decide
/-- 95_test_vectors.md P4, step 1: one pin for both. -/
theorem test_configure_same_pin :
    after (exec (.configure 0 4 4) (granting [.ok] [.ok] State.reset)) (fun t => (t.trace, lastResp t, t.regs.life)) =
      some ([.openPort 0 .ok, .claimIn 4 .ok, .claimOut 4 .claimFail, .closePort], some 0x02, .uninit) := by decide

/-- 95_test_vectors.md 2.3, 0x02000001. -/
theorem test_setReadingFormat :
    after (exec (.setReadingFormat 0 1) session) (fun t => (t.regs.byteOrder, t.regs.bitOrder, lastResp t)) =
      some (.lsb, .msb, some 0x10) := by decide
/-- 95_test_vectors.md 2.3, 0x02000006: a reserved byte order beside a valid bit order. -/
theorem test_setReadingFormat_reserved :
    after (exec (.setReadingFormat 1 2) session) (fun t => (t.regs.byteOrder, t.regs.bitOrder, lastResp t)) =
      some (.msb, .msb, some 0x14) := by decide

/-- 95_test_vectors.md 2.5, -0.0. -/
theorem test_setReferenceUnit_zero :
    after (exec (.setReferenceUnit 0x8000000000000000) session) (fun t => (t.regs.refUnit, lastResp t)) =
      some (0x3FF0000000000000, some 0x15) := by decide
/-- 95_test_vectors.md 2.5, a signalling NaN. -/
theorem test_setReferenceUnit_nan :
    after (exec (.setReferenceUnit 0x7FF0000000000001) session) (fun t => (t.regs.refUnit, lastResp t)) =
      some (0x7FF0000000000001, some 0x10) := by decide

/-- 95_test_vectors.md T3. -/
theorem test_tare_rounds :
    after (exec (.tare 2) (feed [1, 2, 2] session)) (fun t => (t.regs.offset, lastResp t)) =
      some (0x3FFAAAAAAAAAAAAB, some 0x10) := by decide +kernel
/-- 95_test_vectors.md X9. -/
theorem test_tare_timeout :
    after (exec (.tare 0) (silent { session with trace := [] })) (fun t => (t.trace, t.regs.offset, lastResp t)) =
      some ([.read 5 true, .read 5 true], 0, some 0x13) := by decide +kernel

/-- 95_test_vectors.md W4. -/
theorem test_getWeight :
    after (exec (.getWeight 1) (feed [305, 303]
      { session with regs := { session.regs with offset := 0x4059C00000000000, refUnit := 0x4000000000000000 } }))
      (fun t => (lastResult t, lastResp t)) = some (some 0x4059200000000000, some 0x10) := by decide +kernel
/-- 95_test_vectors.md W5: a negative zero. -/
theorem test_getWeight_negative_zero :
    after (exec (.getWeight 0) (feed [103]
      { session with regs := { session.regs with offset := 0x4059C00000000000, refUnit := 0xBFF0000000000000 } }))
      lastResult = some (some 0x8000000000000000) := by decide +kernel

/-- 95_test_vectors.md 2.8, step 1. -/
theorem test_powerDown :
    after (exec .powerDown { session with trace := [] }) (fun t => (t.trace, t.regs.pwr, t.regs.clk, lastResp t)) =
      some ([.write 6 true, .hold 6 .pdHold], .asleep, .driven true, some 0x50) := by decide
/-- 95_test_vectors.md 2.8, step 4. -/
theorem test_powerUp :
    after (exec .powerUp { asleep with trace := [] }) (fun t => (t.trace, t.regs.pwr, t.regs.clk, lastResp t)) =
      some ([.write 6 false], .awake, .driven false, some 0x10) := by decide

/-- 95_test_vectors.md 2.9, CLOSE while ASLEEP. -/
theorem test_close_asleep :
    after (exec .close { asleep with trace := [] }) (fun t => (t.trace, t.regs.pwr, t.regs.portOpen, lastResp t)) =
      some ([.write 6 false, .closePort], .awake, false, some 0x20) := by decide
/-- 95_test_vectors.md 2.9, CLOSE in UNINIT. -/
theorem test_close_uninit :
    after (exec .close State.reset) (fun t => (t.trace, t.regs.life, lastResp t)) =
      some ([], .closed, some 0x20) := by decide

/-- 95_test_vectors.md 2.4, A64. -/
theorem test_setGainChannel :
    after (exec (.setGainChannel 2) session) (fun t => (t.regs.gain, lastResp t)) = some (.a64, some 0x10) := by decide
/-- 95_test_vectors.md 2.4, GC = 3. -/
theorem test_setGainChannel_reserved :
    after (exec (.setGainChannel 3) session) (fun t => (t.regs.gain, lastResp t)) = some (.a128, some 0x14) := by decide

/-- 95_test_vectors.md 2.10: an illegal word in CLOSED, and a refused operand in ASLEEP. -/
theorem test_precedence :
    after (step (presented 0x04010000 0 closed)) lastResp = some (some 0x28) ∧
    after (step (presented 0x02000003 0 asleep)) lastResp = some (some 0x54) ∧
    after (step (presented 0x05000000 0 asleep)) lastResp = some (some 0x57) := by decide

/-! ## States that meet the invariants -/

theorem session_inv : session.Inv where
  refUnit_nonzero := by decide
  portOpen_iff_ready := by decide
  clk_awake := by decide
  clk_asleep := by decide
  clk_undriven := by decide
  pwr_awake := by decide
  session := fun _ => ⟨5, 6, 0, by decide, rfl, rfl, rfl, rfl⟩
  no_session := by decide

theorem asleep_inv : asleep.Inv where
  refUnit_nonzero := by decide
  portOpen_iff_ready := by decide
  clk_awake := by decide
  clk_asleep := by decide
  clk_undriven := by decide
  pwr_awake := by decide
  session := fun _ => ⟨5, 6, 0, by decide, rfl, rfl, rfl, rfl⟩
  no_session := by decide

/-- UNINIT with open and claim answers supplied. -/
def fresh (opens : List OpenResult) (claims : List ClaimResult) : State := granting opens claims State.reset

theorem fresh_inv (opens : List OpenResult) (claims : List ClaimResult) : (fresh opens claims).Inv :=
  State.Inv.of_eq (s := fresh [.ok] [.ok, .ok])
    { refUnit_nonzero := by decide
      portOpen_iff_ready := by decide
      clk_awake := by decide
      clk_asleep := by decide
      clk_undriven := by decide
      pwr_awake := by decide
      session := by decide
      no_session := by decide } rfl rfl

theorem session_safe : session.SafeTrace := by
  unfold State.SafeTrace
  decide

theorem asleep_safe : asleep.SafeTrace := by
  unfold State.SafeTrace
  decide

theorem session_offset : session.OffsetBounded := by
  have zero : f64Exp session.regs.offset = 0 ∧ f64Frac session.regs.offset = 0 := by decide
  exact ⟨by decide, by simp [f64Value, zero]⟩

/-! ## Witnesses: encoding -/

theorem witness_EncodeInvertsDecode :
    decode { cmd := 0x03000000, arg := 0x4000000000000000 } = some (.setReferenceUnit 0x4000000000000000) ∧
    (Instr.setReferenceUnit 0x4000000000000000).opcode = .setReferenceUnit := by decide

theorem witness_OpcodeMapSelectsAtMostOneRow :
    Opcode.close.selects 0x08000000 = true ∧
    (0x02000008 : Word) &&& 0xFFFFFFF0 = 0x02000000 ∧ (0x0200000F : Word) &&& 0xFFFFFFF0 = 0x02000000 := by decide

/-- Both sides of each alternative of ILLEGAL at its edges, and a presented ILLEGAL word. -/
theorem witness_IllegalWordsAreTheTwoKinds :
    (([0x00FFFFFF, 0x0A000000, 0xFFFFFFFF, 0x02000010, 0x02FFFFFF, 0x03000001, 0x06800000, 0x07000001, 0x08FFFFFF,
        0x04010000, 0x05FF0000, 0x09000004, 0x09FFFFFF] : List Word).all fun w => (decode { cmd := w, arg := 0 }).isNone) ∧
    (([0x01000000, 0x01FFFFFF, 0x0200000F, 0x03000000, 0x06000000, 0x07000000, 0x08000000, 0x0400FFFF, 0x0500FFFF,
        0x09000003] : List Word).all fun w => (decode { cmd := w, arg := 0 }).isSome) ∧
    (presented 0x0A000000 0 session).commands = { cmd := 0x0A000000, arg := 0 } :: [] := by decide

theorem witness_ArgumentIsIgnoredElsewhere :
    (0x02FFFFFF : Word).extractLsb' 24 8 ≠ 0x03 ∧ (0x04000000 : Word).extractLsb' 24 8 ≠ 0x03 := by decide

/-- Each range of R75 just inside and just outside. -/
theorem witness_AssembledCommandsDecode :
    (assemble (.configure 255 255 255)).isSome ∧ (assemble (.configure 0 0 256)).isNone ∧
    (assemble (.setReadingFormat 3 3)).isSome ∧ (assemble (.setReadingFormat 0 4)).isNone ∧
    (assemble (.tare 1)).isSome ∧ (assemble (.tare 65536)).isSome ∧ (assemble (.tare 0)).isNone ∧
    (assemble (.getWeight 65537)).isNone ∧ (assemble (.setGainChannel 3)).isSome ∧
    (assemble (.setGainChannel 4)).isNone := by decide

/-! ## Witnesses: the step -/

theorem witness_StepRunsThePresentedCommand :
    session.commands = [] ∧
    ((presented 0x08000000 0 session).commands = { cmd := 0x08000000, arg := 0 } :: [] ∧
      decode { cmd := 0x08000000, arg := 0 } = some .close) ∧
    decodeTableWord 32 0x0900FFFF = none ∧ decodeTableWord 32 0x09000003 = some (.setGainChannel 3) := by decide

/-- A GET_WEIGHT whose RESULT is not 0. -/
theorem witness_EveryCommandSendsOneResponse :
    (∃ t, step (presented 0x0A000000 0 State.reset) = .next t) ∧
    after (step (presented 0x05000000 0 (feed [1000] session))) lastResult = some (some 0x408F400000000000) :=
  ⟨⟨_, rfl⟩, by decide +kernel⟩

theorem witness_StepNeverStopsUnderTheInvariant : session.Inv ∧ asleep.Inv ∧ (fresh [] []).Inv :=
  ⟨session_inv, asleep_inv, fresh_inv [] []⟩

/-- A state no run reaches, with the given pins. -/
def withPinValues (d c : Option PinId) : State :=
  { session with regs := { session.regs with dataPin := d, clockPin := c } }

theorem witness_PinWithoutValueIsAFault :
    ((withPinValues (some 5) none).regs.life = .ready ∧ (withPinValues (some 5) none).regs.clockPin = none) ∧
    ((withPinValues none (some 6)).regs.pwr = .awake ∧ f64IsZero (withPinValues none (some 6)).regs.refUnit = false ∧
      (withPinValues none (some 6)).regs.dataPin = none) ∧
    (f64IsZero (withPinValues (some 5) none).regs.refUnit = false ∧
      (withPinValues (some 5) none).regs.dataPin = some 5) := by decide

/-- The data pin alone holds a value: a first READ that is ready at once, and one whose reads all answer 1. -/
theorem witness_PinWithoutValueIsAFault_waits :
    ((feed [7] (withPinValues (some 5) none)).regs.pwr = .awake ∧
      0 ≤ (feed [7] (withPinValues (some 5) none)).nextDeadline ∧
      (feed [7] (withPinValues (some 5) none)).levelAt 0 = false) ∧
    ((silent (withPinValues (some 5) none)).nextDeadline = 1 ∧
      ∀ j ≤ 1, (silent (withPinValues (some 5) none)).levelAt j = true) := by decide

/-- 40_serial_reader.md R80: a first READ that times out reads no CLOCK_PIN, and answers SensorTimeout without it. -/
theorem test_timeout_reads_no_clock_pin :
    after (exec (.tare 1) (silent (withPinValues (some 5) none))) (fun t => t.responses.map Response.status) =
      some [3] ∧
    exec (.tare 1) (feed [7] (withPinValues (some 5) none)) = .fault .clockPinNoValue :=
  ⟨by decide +kernel, rfl⟩

/-- Neither pin holds a value: the clock clause and the data clause both apply, to different commands. -/
theorem witness_PinWithoutValueIsAFault_neither :
    (withPinValues none none).regs.life = .ready ∧ (withPinValues none none).regs.pwr = .awake ∧
    f64IsZero (withPinValues none none).regs.refUnit = false ∧
    (withPinValues none none).regs.clockPin = none ∧ (withPinValues none none).regs.dataPin = none := by decide

/-- 10_state.md R20, 40_serial_reader.md R77: the data pin is read first, so with neither pin GET_WEIGHT reports DATA_PIN and POWER_UP CLOCK_PIN. -/
theorem test_neither_pin_faults :
    exec (.getWeight 0) (withPinValues none none) = .fault .dataPinNoValue ∧
    exec .powerUp (withPinValues none none) = .fault .clockPinNoValue := ⟨rfl, rfl⟩

/-! ## Witnesses: dispatch and lifecycle -/

theorem witness_LifecycleTableRefuses :
    closed.regs.life = .closed ∧ Instr.powerUp ≠ .close ∧
    (State.reset.regs.life = .uninit ∧ Instr.powerDown.opcode ≠ .configure ∧ Instr.powerDown ≠ .close) ∧
    (session.regs.life = .ready ∧ (Instr.configure 0 6 5).opcode = .configure) ∧
    (asleep.regs.life = .ready ∧ asleep.regs.pwr = .asleep ∧ (Instr.getWeight 0).opcode = .getWeight) := by decide

/-- A refusal with the lowest status of the range, 4, and one with the highest, 8. -/
theorem witness_RefusedCommandsTouchNothing :
    after (step (presented 0x09000003 0 session)) (fun t => (t.responses.map Response.status)) = some [4] ∧
    after (step (presented 0x00000000 0 session)) (fun t => (t.responses.map Response.status)) = some [8] := by decide

theorem witness_ClosedIsTerminal : closed.regs.life = .closed ∧ ∃ t, step (presented 0x01000605 0 closed) = .next t :=
  ⟨rfl, _, rfl⟩

theorem witness_ConfigureOpensASessionOrNothing_openFail : (fresh [.openFail] []).Inv ∧
    (fresh [.openFail] []).regs.life = .uninit ∧
    (fresh [.openFail] []).env.opens.nth Config.freeOpen 0 = .openFail := ⟨fresh_inv _ _, rfl, rfl⟩

theorem witness_ConfigureOpensASessionOrNothing_inputFail : (fresh [.ok] [.claimFail]).Inv ∧
    (fresh [.ok] [.claimFail]).env.opens.nth Config.freeOpen 0 = .ok ∧
    (fresh [.ok] [.claimFail]).env.claims.nth Config.freeClaim 0 = .claimFail := ⟨fresh_inv _ _, rfl, rfl⟩

/-- For one pin for both, and for two pins. -/
theorem witness_ConfigureOpensASessionOrNothing_outputFail : (fresh [.ok] [.ok, .claimFail]).Inv ∧
    (fresh [.ok] [.ok, .claimFail]).env.opens.nth Config.freeOpen 0 = .ok ∧
    (fresh [.ok] [.ok, .claimFail]).env.claims.nth Config.freeClaim 0 = .ok ∧ (5 : PinId) ≠ 6 ∧
    (fresh [.ok] [.ok, .claimFail]).env.claims.nth Config.freeClaim 1 = .claimFail :=
  ⟨fresh_inv _ _, rfl, rfl, by decide, rfl⟩

theorem witness_ConfigureOpensASessionOrNothing_ok : (fresh [.ok] [.ok, .ok]).Inv ∧
    (fresh [.ok] [.ok, .ok]).env.opens.nth Config.freeOpen 0 = .ok ∧
    (fresh [.ok] [.ok, .ok]).env.claims.nth Config.freeClaim 0 = .ok ∧ (0 : PinId) ≠ 255 ∧
    (fresh [.ok] [.ok, .ok]).env.claims.nth Config.freeClaim 1 = .ok := ⟨fresh_inv _ _, rfl, rfl, by decide, rfl⟩

theorem witness_CloseEndsTheSession : (asleep.regs.life = .ready ∧ asleep.regs.clockPin = some 6) ∧
    State.reset.regs.life = .uninit ∧ closed.regs.life = .closed := by decide

/-! ## Witnesses: the setters -/

theorem witness_SetReadingFormatWritesBothOrNeither : session.regs.life = .ready ∧
    ((1 : BitVec 2) ≤ 1 ∧ (0 : BitVec 2) ≤ 1) ∧ (1 : BitVec 2) < 2 ∧ (1 : BitVec 2) < 3 := by decide

theorem witness_SetGainChannelWritesTheMode : asleep.regs.life = .ready ∧ (2 : BitVec 2) ≠ 3 := by decide

/-- The patterns next to the two zeros. -/
theorem witness_SetReferenceUnitRejectsOnlyZeros : session.regs.life = .ready ∧
    ((0x0000000000000001 : F64) ≠ 0x0000000000000000 ∧ (0x0000000000000001 : F64) ≠ 0x8000000000000000) ∧
    (0x8000000000000001 : F64) ≠ 0x0000000000000000 ∧ (0x7FFFFFFFFFFFFFFF : F64) ≠ 0x8000000000000000 := by decide

/-! ## Witnesses: READ -/

/-- One read of 1, then ready at the last read before the deadline. -/
def lateReady : State :=
  { session with env := { session.env with
      levels := { queue := true :: false :: bits 10, taken := 0 }
      deadlines := { queue := [1], taken := 0 } } }

theorem witness_ReadCapturesOneSampleOrTimesOut_ready :
    1 ≤ lateReady.nextDeadline ∧ (∀ j < 1, lateReady.levelAt j = true) ∧ lateReady.levelAt 1 = false := by decide

theorem witness_ReadCapturesOneSampleOrTimesOut_first :
    0 ≤ (feed [0x800001] session).nextDeadline ∧ (∀ j < 0, (feed [0x800001] session).levelAt j = true) ∧
    (feed [0x800001] session).levelAt 0 = false := by decide

theorem witness_ReadCapturesOneSampleOrTimesOut_timeout :
    (silent session).nextDeadline = 1 ∧ ∀ j ≤ 1, (silent session).levelAt j = true := by decide

/-- A READ whose result is known leaves some state. -/
theorem read_answers {d c : PinId} {p : Nat} {s : State} {x : Option Int} (h : (readSample d c p s).1 = x) :
    ∃ t, readSample d c p s = (x, t) := ⟨_, Prod.ext h rfl⟩

/-- READs that capture a Sample, at the smallest and the largest pulse count, and one that times out. -/
theorem witness_ReadIssuesTheCountedPrimitives :
    (feed [7] session).regs.clk = .driven false ∧
    (∃ x t, readSample 5 6 25 (feed [7] session) = (some x, t)) ∧
    (∃ x t, readSample 5 6 27 lateReady = (some x, t)) ∧ ∃ t, readSample 5 6 25 (silent session) = (none, t) :=
  ⟨rfl, ⟨7, read_answers (by decide +kernel)⟩, ⟨10, read_answers (by decide +kernel)⟩,
    read_answers (by decide +kernel)⟩

theorem witness_ReadNeverHoldsTheClockHigh : ∃ x t, readSample 5 6 26 (feed [7] session) = (x, t) := ⟨_, _, rfl⟩

theorem witness_SampleIsReorderedThenSignExtended :
    (0x800000 : Raw).getLsbD 23 = true ∧ (0x7FFFFF : Raw).getLsbD 23 = false := by decide

/-! ## Witnesses: TARE and GET_WEIGHT -/

/-- One READ done. -/
theorem one_read (acc : Nat) (x : Int) (s : State) (h : (readSample 5 6 25 (feed [acc] s)).1 = some x) :
    ReadsDone 5 6 25 [x] (feed [acc] s) (readSample 5 6 25 (feed [acc] s)).2 :=
  ⟨_, Prod.ext h rfl, rfl⟩

/-- A session with a REF_UNIT. -/
def withUnit (u : F64) : State := { session with regs := { session.regs with refUnit := u } }

/-- The premises of both statements, for states of this shape. -/
theorem witness_premises (u : F64) : (feed [5] (withUnit u)).regs.life = .ready ∧
    (feed [5] (withUnit u)).regs.pwr = .awake ∧ (feed [5] (withUnit u)).regs.dataPin = some 5 ∧
    (feed [5] (withUnit u)).regs.clockPin = some 6 ∧ readPulses (feed [5] (withUnit u)).regs.gain = 25 :=
  ⟨rfl, rfl, rfl, rfl, rfl⟩

theorem witness_TareStoresTheMeanOfItsReads_done : ∃ xs u, xs.length = (0 : BitVec 16).toNat + 1 ∧
    ReadsDone 5 6 (readPulses (feed [5] session).regs.gain) xs (feed [5] session) u :=
  ⟨[5], _, rfl, one_read 5 5 session (by decide +kernel)⟩

theorem witness_TareStoresTheMeanOfItsReads_timeout : ∃ xs u t, xs.length < (0xFFFF : BitVec 16).toNat + 1 ∧
    ReadsDone 5 6 (readPulses (silent session).regs.gain) xs (silent session) u ∧
    readSample 5 6 (readPulses (silent session).regs.gain) u = (none, t) :=
  have ⟨t, h⟩ := read_answers (d := 5) (c := 6) (p := 25) (s := silent session) (x := none) (by decide +kernel)
  ⟨[], _, t, by decide, rfl, h⟩

theorem witness_GetWeightAnswersTheCalibratedMean_zero :
    f64IsZero (withUnit 0x8000000000000000).regs.refUnit = true := by decide

theorem witness_GetWeightAnswersTheCalibratedMean_weight : f64IsZero (withUnit 0x4008000000000000).regs.refUnit = false ∧
    ReadsDone 5 6 25 [1] (feed [1] (withUnit 0x4008000000000000))
      (readSample 5 6 25 (feed [1] (withUnit 0x4008000000000000))).2 ∧
    (fsub (meanOf 1 1) 0).bind (fun m => fdiv m 0x4008000000000000) = some 0x3FD5555555555555 :=
  ⟨by decide, one_read 1 1 _ (by decide +kernel), by decide +kernel⟩

theorem witness_GetWeightAnswersTheCalibratedMean_nan : f64IsZero (withUnit 0x7FF8000000000000).regs.refUnit = false ∧
    ReadsDone 5 6 25 [1] (feed [1] (withUnit 0x7FF8000000000000))
      (readSample 5 6 25 (feed [1] (withUnit 0x7FF8000000000000))).2 ∧
    (fsub (meanOf 1 1) 0).bind (fun m => fdiv m 0x7FF8000000000000) = none :=
  ⟨by decide, one_read 1 1 _ (by decide +kernel), by decide +kernel⟩

theorem witness_GetWeightAnswersTheCalibratedMean_timeout : ∃ t, readSample 5 6 25 (silent session) = (none, t) :=
  read_answers (by decide +kernel)

/-- TARE that fails and GET_WEIGHT that succeeds, both answering a next state. -/
theorem witness_TareAndGetWeightFrame :
    after (exec (.tare 0) (silent session)) (fun t => t.responses.map Response.status) = some [3] ∧
    after (exec (.getWeight 0) (feed [1] session)) (fun t => t.responses.map Response.status) = some [0] := by
  decide +kernel

theorem witness_ByteOrderHasNoEffect : (∃ x t, readSample 5 6 25 (feed [1] session) = (x, t)) ∧
    (after (exec (.tare 0) (feed [1] session)) fun _ => ()).isSome ∧
    (after (exec (.getWeight 0) (feed [1] session)) fun _ => ()).isSome := ⟨⟨_, _, rfl⟩, by decide +kernel⟩

/-! ## Witnesses: binary64 -/

theorem witness_MeanIsTheQuotientRoundedOnce :
    (1 ≤ 65536 ∧ 65536 ≤ 65536 ∧ |(-549755813888 : Int)| ≤ 2 ^ 39) ∧ |(0 : Int)| ≤ 2 ^ 39 := by decide

theorem witness_MeanOfEqualSamplesIsExact :
    (-8388608 : Int) ≤ -8388608 ∧ (-8388608 : Int) ≤ 8388607 ∧ (8388607 : Int) ≤ 8388607 := by decide

/-- Each clause at a pattern of its class: a NaN, the infinities, the largest finite value, the zeros and the smallest
subnormal. -/
theorem witness_SubtractionFollowsIeee :
    f64IsNaN 0x7FF0000000000001 = true ∧ f64IsInf 0x7FF0000000000000 = true ∧ f64IsInf 0xFFF0000000000000 = true ∧
    f64IsFinite 0x7FEFFFFFFFFFFFFF = true ∧ f64IsFinite 0x8000000000000000 = true ∧
    (f64IsZero 0x8000000000000000 = true ∧ f64Sign 0x8000000000000000 = true ∧ f64Sign 0 = false) := by decide

theorem witness_DivisionFollowsIeee :
    f64IsNaN 0xFFFFFFFFFFFFFFFF = true ∧ f64IsInf 0xFFF0000000000000 = true ∧ f64IsZero 0x8000000000000000 = true ∧
    (f64IsFinite 0x0000000000000001 = true ∧ f64IsZero 0x0000000000000001 = false) ∧
    (f64IsFinite 0x7FEFFFFFFFFFFFFF = true ∧ f64IsZero 0x7FEFFFFFFFFFFFFF = false) := by decide

theorem witness_WeightIsNanOnlyForANanUnit : f64IsFinite session.regs.offset = true ∧
    |f64Value session.regs.offset| ≤ 2 ^ 23 ∧ f64IsZero 0x7FF8000000000000 = false ∧
    f64IsNaN 0x7FF8000000000000 = true ∧ f64IsZero 0x7FF0000000000000 = false ∧
    f64IsNaN 0x7FF0000000000000 = false :=
  ⟨session_offset.1, session_offset.2, by decide⟩

theorem witness_ResetCalibrationReturnsTheMean :
    f64IsFinite 0x7FEFFFFFFFFFFFFF = true ∧ f64IsFinite 0x8000000000000000 = true := by decide

/-! ## Witnesses: power and the whole machine -/

theorem witness_power : session.regs.life = .ready ∧ session.regs.clockPin = some 6 ∧ asleep.regs.life = .ready ∧
    asleep.regs.clockPin = some 6 := by decide

/-- Into ASLEEP, and out of it by POWER_UP and by CLOSE. -/
theorem witness_OnlyPowerCommandsChangePwr :
    (presented 0x06000000 0 session).Inv ∧ (presented 0x07000000 0 asleep).Inv ∧
    after (step (presented 0x06000000 0 session)) (fun t => t.regs.pwr) = some .asleep ∧
    after (step (presented 0x07000000 0 asleep)) (fun t => t.regs.pwr) = some .awake ∧
    after (step (presented 0x08000000 0 asleep)) (fun t => t.regs.pwr) = some .awake :=
  ⟨session_inv.of_eq rfl rfl, asleep_inv.of_eq rfl rfl, by decide⟩

theorem witness_HoldOnlyInsidePowerDown :
    after (step (presented 0x06000000 0 { session with trace := [] })) (fun t => t.trace.contains (.hold 6 .pdHold)) =
      some true := by decide

/-- Each register is written by some command: the premise of each clause is met. -/
theorem witness_OnlyTheNamedCommandsWrite :
    after (exec (.configure 0 6 5) (fresh [.ok] [.ok, .ok]))
      (fun t => decide (t.regs.life ≠ .uninit ∧ t.regs.dataPin ≠ none ∧ t.regs.clockPin ≠ none ∧ t.regs.chipId ≠ none ∧
        t.regs.portOpen ≠ false)) = some true ∧
    after (exec .powerDown session) (fun t => decide (t.regs.pwr ≠ .awake)) = some true ∧
    after (exec (.setReadingFormat 1 1) session) (fun t => decide (t.regs.byteOrder ≠ .msb ∧ t.regs.bitOrder ≠ .msb)) =
      some true ∧
    after (exec (.setGainChannel 1) session) (fun t => decide (t.regs.gain ≠ .a128 ∧ t.trace = session.trace)) =
      some true ∧
    after (exec (.setReferenceUnit 1) session) (fun t => decide (t.regs.refUnit ≠ 0x3FF0000000000000)) = some true := by
  decide

theorem witness_OnlyTheNamedCommandsWrite_offset :
    after (exec (.tare 0) (feed [1] session)) (fun t => decide (t.regs.offset ≠ 0)) = some true := by decide +kernel

/-- A command that fails, and one that brings the clock to 1. -/
theorem witness_FailedCommandsLeaveTheClockLow :
    (presented 0x09000003 0 session).Inv ∧
    after (step (presented 0x09000003 0 session)) (fun t => t.responses.map Response.status) = some [4] ∧
    session.regs.clk ≠ .driven true ∧
    after (step (presented 0x06000000 0 session)) (fun t => t.regs.clk) = some (.driven true) :=
  ⟨session_inv.of_eq rfl rfl, by decide, by decide, by decide⟩

theorem witness_StepKeepsTheInvariant : (presented 0x06000000 0 session).Inv ∧
    ∃ t, step (presented 0x06000000 0 session) = .next t := ⟨session_inv.of_eq rfl rfl, _, rfl⟩

theorem witness_StepKeepsThePortContract : (presented 0x08000000 0 asleep).Inv ∧
    (presented 0x08000000 0 asleep).SafeTrace ∧ ∃ t, step (presented 0x08000000 0 asleep) = .next t :=
  ⟨asleep_inv.of_eq rfl rfl, asleep_safe, _, rfl⟩

theorem witness_StepKeepsOffsetBounded : (presented 0x07000000 0 session).OffsetBounded ∧
    ∃ t, step (presented 0x07000000 0 session) = .next t := ⟨session_offset, _, rfl⟩

end Sys2Proof.Tests
end

section
/-!
The subtraction and the division of 42_calibration.md R101 on every pair of patterns: what their operand classes
exclude, the value of a finite pattern in units, one equation per case of each function, and the two statements O32 and
O33. The finite results are the rounding lemma `isRounded_pack` at the exact difference and quotient.
-/

namespace Sys2Proof.Machine

/-! ## Operand classes -/

theorem f64IsNaN_of_isFinite {x : F64} (h : f64IsFinite x = true) : f64IsNaN x = false := by
  have exp : f64Exp x ≠ 2047 := by simpa [f64IsFinite] using h
  simp [f64IsNaN, exp]

theorem f64IsInf_of_isFinite {x : F64} (h : f64IsFinite x = true) : f64IsInf x = false := by
  have exp : f64Exp x ≠ 2047 := by simpa [f64IsFinite] using h
  simp [f64IsInf, exp]

theorem f64IsNaN_of_isInf {x : F64} (h : f64IsInf x = true) : f64IsNaN x = false := by
  have frac : f64Exp x = 2047 ∧ f64Frac x = 0 := by simpa [f64IsInf] using h
  simp [f64IsNaN, frac.2]

theorem f64IsFinite_of_isZero {x : F64} (h : f64IsZero x = true) : f64IsFinite x = true := by
  have exp : f64Exp x = 0 ∧ f64Frac x = 0 := by simpa [f64IsZero] using h
  simp [f64IsFinite, exp.1]

/-! ## Values in units -/

theorem unitsPerOne_cast_pos : (0 : ℚ) < unitsPerOne := by exact_mod_cast unitsPerOne_pos

theorem mul_unitsPerOne_neg (q : ℚ) : q * unitsPerOne < 0 ↔ q < 0 := by
  simp [mul_neg_iff, unitsPerOne_pos]

theorem abs_f64Int (x : F64) : |f64Int x| = f64Units x := by
  unfold f64Int
  split <;> simp

theorem abs_f64Value (x : F64) : |f64Value x| * unitsPerOne = f64Units x := by
  rw [← abs_of_pos unitsPerOne_cast_pos, ← abs_mul, ← f64Int_eq]
  exact_mod_cast abs_f64Int x

theorem f64Int_eq_iff (a b : F64) : f64Int a = f64Int b ↔ f64Value a = f64Value b := by
  rw [← Int.cast_inj (α := ℚ), f64Int_eq, f64Int_eq, mul_left_inj' unitsPerOne_cast_pos.ne']

theorem f64IsZero_iff_value (x : F64) : f64IsZero x = true ↔ f64Value x = 0 := by
  rw [f64IsZero_iff, ← Nat.cast_eq_zero (R := ℚ), ← abs_f64Value, mul_eq_zero, abs_eq_zero,
    or_iff_left unitsPerOne_cast_pos.ne']

theorem f64Units_pos {x : F64} (nonzero : f64IsZero x = false) : 0 < f64Units x :=
  Nat.pos_of_ne_zero fun zero => by simp [(f64IsZero_iff x).mpr zero] at nonzero

/-- Away from zero the sign bit is the sign of the value. -/
theorem f64Sign_eq_value_neg {x : F64} (h : f64IsZero x = false) : f64Sign x = decide (f64Value x < 0) := by
  have units := f64Units_pos h
  have neg : f64Value x < 0 ↔ f64Int x < 0 := by
    rw [← Int.cast_lt_zero (R := ℚ), f64Int_eq, mul_unitsPerOne_neg]
  rw [Bool.eq_iff_iff, decide_eq_true_iff, neg, f64Int]
  cases f64Sign x <;> simp [units]

/-! ## Subtraction -/

section subtraction

variable {a b : F64}

theorem fsub_of_isNaN (h : f64IsNaN a = true ∨ f64IsNaN b = true) : fsub a b = none := by
  rw [fsub, if_pos (by simpa using h)]

theorem fsub_of_isInf_isInf (ha : f64IsInf a = true) (hb : f64IsInf b = true) :
    fsub a b = if f64Sign a = f64Sign b then none else some (f64Inf (f64Sign a)) := by
  simp [fsub, f64IsNaN_of_isInf ha, f64IsNaN_of_isInf hb, ha, hb]

theorem fsub_of_isInf_isFinite (ha : f64IsInf a = true) (hb : f64IsFinite b = true) : fsub a b = some a := by
  simp [fsub, f64IsNaN_of_isInf ha, f64IsNaN_of_isFinite hb, ha, f64IsInf_of_isFinite hb, ← f64IsInf_eq a ha]

theorem fsub_of_isFinite_isInf (ha : f64IsFinite a = true) (hb : f64IsInf b = true) :
    fsub a b = some (f64Inf (!f64Sign b)) := by
  simp [fsub, f64IsNaN_of_isFinite ha, f64IsNaN_of_isInf hb, f64IsInf_of_isFinite ha, hb]

theorem fsub_of_isFinite (ha : f64IsFinite a = true) (hb : f64IsFinite b = true) :
    fsub a b =
      if f64Int a - f64Int b = 0 then some (f64Zero (f64IsZero a && f64IsZero b && f64Sign a && !f64Sign b))
      else some (f64Pack (decide (f64Int a - f64Int b < 0)) (roundMagnitude (f64Int a - f64Int b).natAbs 1)) := by
  simp [fsub, f64IsNaN_of_isFinite ha, f64IsNaN_of_isFinite hb, f64IsInf_of_isFinite ha, f64IsInf_of_isFinite hb]

/-- Equal values: the zero is negative only for -0.0 minus +0.0. -/
theorem fsub_of_value_eq (ha : f64IsFinite a = true) (hb : f64IsFinite b = true) (h : f64Value a = f64Value b) :
    fsub a b = some (if f64IsZero a = true ∧ f64Sign a = true ∧ f64Sign b = false then 0x8000000000000000 else 0) := by
  have zeros : f64IsZero b = f64IsZero a := by
    rw [Bool.eq_iff_iff, f64IsZero_iff_value, f64IsZero_iff_value, h]
  rw [fsub_of_isFinite ha hb, if_pos (sub_eq_zero.mpr ((f64Int_eq_iff a b).mpr h)), zeros]
  cases f64IsZero a <;> cases f64Sign a <;> cases f64Sign b <;> rfl

/-- Different values: the difference is a whole number of units, rounded once. -/
theorem fsub_of_value_ne (ha : f64IsFinite a = true) (hb : f64IsFinite b = true) (h : f64Value a ≠ f64Value b) :
    ∃ y : F64, fsub a b = some y ∧ IsRounded (f64Value a - f64Value b) y := by
  have units : ((f64Int a - f64Int b : ℤ) : ℚ) = (f64Value a - f64Value b) * unitsPerOne := by
    rw [Int.cast_sub, f64Int_eq, f64Int_eq, sub_mul]
  have neg : f64Int a - f64Int b < 0 ↔ f64Value a - f64Value b < 0 := by
    rw [← Int.cast_lt_zero (R := ℚ), units, mul_unitsPerOne_neg]
  have magnitude : |f64Value a - f64Value b| * unitsPerOne = ((f64Int a - f64Int b).natAbs : ℚ) / (1 : ℕ) := by
    rw [Nat.cast_one, div_one, Nat.cast_natAbs, Int.cast_abs, units, abs_mul, abs_of_pos unitsPerOne_cast_pos]
  refine ⟨_, by rw [fsub_of_isFinite ha hb, if_neg (sub_ne_zero.mpr (mt (f64Int_eq_iff a b).mp h))], ?_⟩
  rw [decide_eq_decide.mpr neg]
  exact isRounded_pack _ _ 1 one_pos magnitude

end subtraction

/-! ## Division -/

section division

variable {a b : F64}

theorem fdiv_of_isNaN (h : f64IsNaN a = true ∨ f64IsNaN b = true) : fdiv a b = none := by
  rw [fdiv, if_pos (by simpa using h)]

theorem fdiv_of_isInf_isInf (ha : f64IsInf a = true) (hb : f64IsInf b = true) : fdiv a b = none := by
  simp [fdiv, ha, hb]

theorem fdiv_of_isInf_isFinite (ha : f64IsInf a = true) (hb : f64IsFinite b = true) :
    fdiv a b = some (f64Inf (f64Sign a ^^ f64Sign b)) := by
  simp [fdiv, f64IsNaN_of_isInf ha, f64IsNaN_of_isFinite hb, ha, f64IsInf_of_isFinite hb]

theorem fdiv_of_isFinite_isInf (ha : f64IsFinite a = true) (hb : f64IsInf b = true) :
    fdiv a b = some (f64Zero (f64Sign a ^^ f64Sign b)) := by
  simp [fdiv, f64IsNaN_of_isFinite ha, f64IsNaN_of_isInf hb, f64IsInf_of_isFinite ha, hb]

theorem fdiv_of_isFinite (ha : f64IsFinite a = true) (hb : f64IsFinite b = true) :
    fdiv a b =
      if f64IsZero b then if f64IsZero a then none else some (f64Inf (f64Sign a ^^ f64Sign b))
      else some (f64Pack (f64Sign a ^^ f64Sign b) (roundMagnitude (f64Units a * unitsPerOne) (f64Units b))) := by
  simp [fdiv, f64IsNaN_of_isFinite ha, f64IsNaN_of_isFinite hb, f64IsInf_of_isFinite ha, f64IsInf_of_isFinite hb]

theorem fdiv_of_isZero_isZero (ha : f64IsZero a = true) (hb : f64IsZero b = true) : fdiv a b = none := by
  rw [fdiv_of_isFinite (f64IsFinite_of_isZero ha) (f64IsFinite_of_isZero hb), if_pos hb, if_pos ha]

theorem fdiv_of_nonzero_isZero (ha : f64IsFinite a = true) (nonzero : f64IsZero a = false) (hb : f64IsZero b = true) :
    fdiv a b = some (f64Inf (f64Sign a ^^ f64Sign b)) := by
  rw [fdiv_of_isFinite ha (f64IsFinite_of_isZero hb), if_pos hb, if_neg (by simp [nonzero])]

theorem fdiv_of_isZero_nonzero (ha : f64IsZero a = true) (hb : f64IsFinite b = true) (nonzero : f64IsZero b = false) :
    fdiv a b = some (f64Zero (f64Sign a ^^ f64Sign b)) := by
  have zero : roundMagnitude (f64Units a * unitsPerOne) (f64Units b) = 0 :=
    roundMagnitude_exact _ _ 0 (f64Units_pos nonzero) (by norm_num) (by
      rw [(f64IsZero_iff a).mp ha, Nat.zero_mul]
      rfl)
  rw [fdiv_of_isFinite (f64IsFinite_of_isZero ha) hb, if_neg (by simp [nonzero]), zero, f64Zero]

/-- The sign of a quotient of values that are not zero. -/
theorem decide_div_neg {p q : ℚ} (hp : p ≠ 0) (hq : q ≠ 0) :
    decide (p / q < 0) = (decide (p < 0) ^^ decide (q < 0)) := by
  rcases hp.lt_or_gt with hp | hp <;> rcases hq.lt_or_gt with hq | hq <;>
    simp [div_neg_iff, hp, hq, hp.not_gt, hq.not_gt]

/-- Finite operands that are not zero: the quotient of the units, rounded once. -/
theorem fdiv_of_nonzero (ha : f64IsFinite a = true) (nza : f64IsZero a = false) (hb : f64IsFinite b = true)
    (nzb : f64IsZero b = false) : ∃ y : F64, fdiv a b = some y ∧ IsRounded (f64Value a / f64Value b) y := by
  have sign : (f64Sign a ^^ f64Sign b) = decide (f64Value a / f64Value b < 0) := by
    rw [f64Sign_eq_value_neg nza, f64Sign_eq_value_neg nzb,
      decide_div_neg (by simp [← f64IsZero_iff_value, nza]) (by simp [← f64IsZero_iff_value, nzb])]
  have magnitude : |f64Value a / f64Value b| * unitsPerOne =
      ((f64Units a * unitsPerOne : ℕ) : ℚ) / (f64Units b : ℕ) := by
    rw [Nat.cast_mul, ← abs_f64Value a, ← abs_f64Value b, mul_div_mul_right _ _ unitsPerOne_cast_pos.ne', abs_div,
      div_mul_eq_mul_div]
  refine ⟨_, by rw [fdiv_of_isFinite ha hb, if_neg (by simp [nzb])], ?_⟩
  rw [sign]
  exact isRounded_pack _ _ _ (f64Units_pos nzb) magnitude

end division

/-! ## The statements -/

/-- Settles O32, one lemma for each pair of operand classes. -/
theorem subtractionFollowsIeee : Obligations.SubtractionFollowsIeee := by
  refine fun a b => ⟨fsub_of_isNaN, fsub_of_isInf_isInf, fsub_of_isInf_isFinite, fsub_of_isFinite_isInf,
    fun ha hb => ?_⟩
  by_cases h : f64Value a = f64Value b
  · exact ⟨_, fsub_of_value_eq ha hb h, by rw [if_pos h]⟩
  · simpa only [if_neg h] using fsub_of_value_ne ha hb h

/-- Settles O33, one lemma for each pair of operand classes. -/
theorem divisionFollowsIeee : Obligations.DivisionFollowsIeee :=
  fun _ _ => ⟨fdiv_of_isNaN, fdiv_of_isInf_isInf, fdiv_of_isInf_isFinite, fdiv_of_isFinite_isInf,
    fdiv_of_isZero_isZero, fdiv_of_nonzero_isZero, fdiv_of_isZero_nonzero, fdiv_of_nonzero⟩

end Sys2Proof.Machine
end

section
/-!
What every step keeps of the state between commands: the invariant of 10_state.md R31 to R34 (O42), and OFFSET within the
range of a Sample (R28, O44). Both go by cases on `Effect`; reset meets them and the port's contract (O2).
-/

namespace Sys2Proof.Machine

/-- A property of the registers and the port is kept by every step when every effect of a command keeps it: the wait and
an ILLEGAL word change neither. -/
theorem step_preserves {P : State → Prop}
    (frame : ∀ {s u : State}, P s → u.regs = s.regs → u.port = s.port → P u)
    (effect : ∀ {i : Instr} {s : State} {st : Status} {regs : Regs} {port : Option Handle} {es : List PortEvent},
      Effect i s st regs port es → P s → P { s with regs := regs, port := port })
    {s t : State} (hs : P s) (h : step s = .next t) : P t := by
  rcases step_effect h with ⟨-, rfl⟩ | ⟨c, rest, -, ⟨-, rfl⟩ | ⟨i, -, st, es, result, happened, -⟩⟩
  · exact hs
  · exact frame hs rfl rfl
  · exact frame (effect happened (frame hs rfl rfl)) rfl rfl

/-! ## The invariant -/

/-- The invariant in READY: the clock shows the power sub-state. -/
theorem State.Inv.of_ready {u : State} (ready : u.regs.life = .ready) (unit : f64IsZero u.regs.refUnit = false)
    (opened : u.regs.portOpen = true) (clock : u.regs.clk = .driven (decide (u.regs.pwr = .asleep)))
    (session : ∃ d c chip, d ≠ c ∧ u.regs.dataPin = some d ∧ u.regs.clockPin = some c ∧ u.regs.chipId = some chip ∧
      u.port = some { chip := chip, claims := [{ pin := d, dir := .input }, { pin := c, dir := .output }] }) :
    u.Inv where
  refUnit_nonzero := unit
  portOpen_iff_ready := iff_of_true opened ready
  clk_awake := fun _ awake => by simp [clock, awake]
  clk_asleep := fun _ asleep => by simp [clock, asleep]
  clk_undriven := fun h => absurd ready h
  pwr_awake := fun h => absurd ready h
  session := fun _ => session
  no_session := fun h => absurd ready h

/-- The invariant in UNINIT and CLOSED: the block holds nothing. -/
theorem State.Inv.of_not_ready {u : State} (unready : u.regs.life ≠ .ready) (unit : f64IsZero u.regs.refUnit = false)
    (unopened : u.regs.portOpen = false) (clock : u.regs.clk = .undriven) (awake : u.regs.pwr = .awake)
    (port : u.port = none) : u.Inv where
  refUnit_nonzero := unit
  portOpen_iff_ready := by simp [unopened, unready]
  clk_awake := fun h => absurd h unready
  clk_asleep := fun h => absurd h unready
  clk_undriven := fun _ => clock
  pwr_awake := fun _ => awake
  session := fun h => absurd h unready
  no_session := fun _ => port

theorem State.Inv.portOpen_ready {s : State} (h : s.Inv) (ready : s.regs.life = .ready) : s.regs.portOpen = true :=
  h.portOpen_iff_ready.mpr ready

theorem State.Inv.portOpen_not_ready {s : State} (h : s.Inv) (unready : s.regs.life ≠ .ready) :
    s.regs.portOpen = false := by
  simpa using mt h.portOpen_iff_ready.mp unready

theorem State.Inv.clk_ready {s : State} (h : s.Inv) (ready : s.regs.life = .ready) :
    s.regs.clk = .driven (decide (s.regs.pwr = .asleep)) := by
  cases pwr : s.regs.pwr with
  | awake => exact h.clk_awake ready pwr
  | asleep => exact h.clk_asleep ready pwr

/-- In READY and AWAKE completed READs leave the clock as they found it: low. -/
theorem State.Inv.clockAfter_eq {s : State} (h : s.Inv) (ready : s.regs.life = .ready) (awake : s.regs.pwr = .awake)
    (reads : List (Nat × (Nat → Level))) : clockAfter s.regs.clk reads = s.regs.clk := by
  simp [clockAfter, h.clk_awake ready awake]

/-- Every effect of a command keeps the invariant. -/
theorem Effect.keeps_inv {i : Instr} {s : State} {st : Status} {regs : Regs} {port : Option Handle}
    {es : List PortEvent} (effect : Effect i s st regs port es) (h : s.Inv) :
    ({ s with regs := regs, port := port } : State).Inv := by
  have idle (uninit : s.regs.life = .uninit) : s.regs.life ≠ .ready := by simp [uninit]
  cases effect with
  | refused | formatInvalid | unitInvalid | gainInvalid | weightInvalid => exact h.of_eq rfl rfl
  | openFail _ _ _ _ uninit => exact h.of_eq rfl (h.no_session (idle uninit)).symm
  | inputFail _ _ _ _ uninit | outputFail _ _ _ _ uninit =>
    exact .of_not_ready (idle uninit) h.refUnit_nonzero (h.portOpen_not_ready (idle uninit)) rfl
      (h.pwr_awake (idle uninit)) rfl
  | configured chip clk dat _ _ ne =>
    exact .of_ready rfl h.refUnit_nonzero rfl rfl ⟨dat, clk, chip, ne, rfl, rfl, rfl, rfl⟩
  | formatSet _ _ _ _ _ ready | gainSet _ _ _ ready =>
    exact .of_ready ready h.refUnit_nonzero (h.portOpen_ready ready) (h.clk_ready ready) (h.session ready)
  | unitSet _ _ ready nonzero =>
    exact .of_ready ready nonzero (h.portOpen_ready ready) (h.clk_ready ready) (h.session ready)
  | tared _ _ _ _ _ _ ready awake | weighed _ _ _ _ _ ready awake =>
    exact .of_ready ready h.refUnit_nonzero (h.portOpen_ready ready) (by simp [awake]) (h.session ready)
  | timedOut _ _ _ reads _ ready awake =>
    exact .of_ready ready h.refUnit_nonzero (h.portOpen_ready ready)
      ((h.clockAfter_eq ready awake reads).trans (h.clk_ready ready)) (h.session ready)
  | slept _ _ ready | woken _ _ ready =>
    exact .of_ready ready h.refUnit_nonzero (h.portOpen_ready ready) rfl (h.session ready)
  | closed => exact .of_not_ready (by simp) h.refUnit_nonzero rfl rfl rfl rfl
  | closedUnused _ uninit =>
    exact .of_not_ready (by simp) h.refUnit_nonzero (h.portOpen_not_ready (idle uninit))
      (h.clk_undriven (idle uninit)) (h.pwr_awake (idle uninit)) (h.no_session (idle uninit))

/-- Settles O42, by cases on the effect of the command. -/
theorem stepKeepsTheInvariant : Obligations.StepKeepsTheInvariant :=
  fun _ _ => step_preserves State.Inv.of_eq Effect.keeps_inv

/-! ## The range of the mean -/

theorem sext24_bounds (u : Raw) : -2 ^ 23 ≤ sext24 u ∧ sext24 u ≤ 2 ^ 23 := by
  have sign : u.getLsbD 23 = decide (2 ^ 23 ≤ u.toNat) := by
    simpa [BitVec.msb_eq_getLsbD_last] using BitVec.msb_eq_decide u
  have bound := u.isLt
  simp only [sext24, sign, decide_eq_true_eq]
  split <;> omega

theorem abs_decodeSample_le (o : Order) (acc : Raw) : |decodeSample o acc| ≤ 2 ^ 23 :=
  abs_le.mpr (sext24_bounds _)

theorem abs_readSample_le {d c : PinId} {p : Nat} {s t : State} {x : Int} (h : readSample d c p s = (some x, t)) :
    |x| ≤ 2 ^ 23 := by
  rcases readSample_cases d c p s with ⟨_, acc, -, -, -, -, run⟩ | ⟨-, run⟩ <;> rw [run] at h <;> cases h
  exact abs_decodeSample_le _ acc

theorem abs_sum_readsDone_le {d c : PinId} {p : Nat} {xs : List Int} {s u : State} (done : ReadsDone d c p xs s u) :
    |xs.sum| ≤ xs.length * 2 ^ 23 := by
  induction xs generalizing s with
  | nil => simp
  | cons x xs ih =>
    obtain ⟨v, read, rest⟩ := done
    calc |x + xs.sum| ≤ |x| + |xs.sum| := abs_add_le _ _
      _ ≤ 2 ^ 23 + xs.length * 2 ^ 23 := add_le_add (abs_readSample_le read) (ih rest)
      _ = (x :: xs).length * 2 ^ 23 := by push_cast [List.length_cons]; ring

/-- The mean is the exact quotient, rounded once (42_calibration.md R100). -/
theorem isRounded_meanOf (sum : Int) {n : Nat} (hn : 0 < n) : IsRounded ((sum : ℚ) / n) (meanOf sum n) := by
  have hn' : (0 : ℚ) < n := by exact_mod_cast hn
  have sign : decide (sum < 0) = decide ((sum : ℚ) / n < 0) := by
    rw [decide_eq_decide, div_lt_iff₀ hn', zero_mul, Int.cast_lt_zero]
  rw [meanOf, rne64, sign]
  refine isRounded_pack _ _ n hn ?_
  rw [abs_div, abs_of_pos hn', Nat.cast_mul, Nat.cast_natAbs, Int.cast_abs, div_mul_eq_mul_div]

/-- The pattern of 2^23, with either sign. -/
theorem f64Value_two_pow_23 : f64IsFinite 0x4160000000000000 = true ∧ f64Value 0x4160000000000000 = 2 ^ 23 ∧
    f64IsFinite 0xC160000000000000 = true ∧ f64Value 0xC160000000000000 = -2 ^ 23 := by
  have plus : f64Sign 0x4160000000000000 = false ∧ f64Exp 0x4160000000000000 = 1046 ∧
    f64Frac 0x4160000000000000 = 0 := by decide
  have minus : f64Sign 0xC160000000000000 = true ∧ f64Exp 0xC160000000000000 = 1046 ∧
    f64Frac 0xC160000000000000 = 0 := by decide
  exact ⟨by decide, by norm_num [f64Value, plus], by decide, by norm_num [f64Value, minus]⟩

theorem two_pow_23_lt_overflow : (2 : ℚ) ^ 23 < 2 ^ 1024 - 2 ^ 970 := by
  have below : (2 : ℚ) ^ 23 < 2 ^ 970 := pow_lt_pow_right₀ one_lt_two (by norm_num)
  have above : (2 : ℚ) ^ 970 * 2 ≤ 2 ^ 1024 := by
    rw [← pow_succ]
    exact pow_le_pow_right₀ one_le_two (by norm_num)
  exact below.trans_le (le_sub_iff_add_le.mpr (by rwa [← mul_two]))

/-- Rounding a value within 2^23 stays within 2^23, which is itself a binary64 value. -/
theorem IsRounded.abs_le_two_pow_23 {q : ℚ} {y : F64} (rounded : IsRounded q y) (hq : |q| ≤ 2 ^ 23) :
    f64IsFinite y = true ∧ |f64Value y| ≤ 2 ^ 23 := by
  obtain ⟨finPlus, plus, finMinus, minus⟩ := f64Value_two_pow_23
  have small : |q| < 2 ^ 1024 - 2 ^ 970 := hq.trans_lt two_pow_23_lt_overflow
  obtain ⟨-, nearest⟩ := rounded
  rw [if_pos small] at nearest
  obtain ⟨finite, nearest⟩ := nearest
  obtain ⟨lo, hi⟩ := abs_le.mp hq
  have below := (nearest _ finPlus).1
  have above := (nearest _ finMinus).1
  rw [plus, abs_of_nonneg (sub_nonneg.mpr hi)] at below
  rw [minus, abs_sub_comm, abs_sub_comm _ q, abs_of_nonneg (show 0 ≤ q - -2 ^ 23 by linarith)] at above
  refine ⟨finite, abs_le.mpr ⟨?_, ?_⟩⟩
  · linarith [le_abs_self (q - f64Value y)]
  · linarith [le_abs_self (f64Value y - q)]

/-- The mean of completed READs lies within the range of a Sample. -/
theorem meanOf_readsDone_bounded {d c : PinId} {p : Nat} {xs : List Int} {s u : State}
    (done : ReadsDone d c p xs s u) (nonempty : 0 < xs.length) :
    f64IsFinite (meanOf xs.sum xs.length) = true ∧ |f64Value (meanOf xs.sum xs.length)| ≤ 2 ^ 23 := by
  have hn : (0 : ℚ) < xs.length := by exact_mod_cast nonempty
  have sum : |(xs.sum : ℚ)| ≤ 2 ^ 23 * xs.length := by
    rw [mul_comm]
    exact_mod_cast abs_sum_readsDone_le done
  refine (isRounded_meanOf xs.sum nonempty).abs_le_two_pow_23 ?_
  rwa [abs_div, abs_of_pos hn, div_le_iff₀ hn]

/-! ## OFFSET -/

/-- A command leaves OFFSET as it was, or is a TARE and stores the mean of its READs (42_calibration.md R105). -/
theorem Effect.offset_cases {i : Instr} {s : State} {st : Status} {regs : Regs} {port : Option Handle}
    {es : List PortEvent} (effect : Effect i s st regs port es) :
    regs.offset = s.regs.offset ∨
      ∃ d c p xs u, 0 < xs.length ∧ ReadsDone d c p xs s u ∧ regs.offset = meanOf xs.sum xs.length := by
  cases effect with
  | tared nm1 d c xs _ _ _ _ _ _ len samples =>
    obtain ⟨u, done⟩ := samples
    exact .inr ⟨d, c, _, xs, u, len ▸ Nat.succ_pos _, done, by rw [len]⟩
  | _ => exact .inl rfl

/-- Settles O44: only TARE writes OFFSET, and the mean it stores is within the range of a Sample. -/
theorem stepKeepsOffsetBounded : Obligations.StepKeepsOffsetBounded := by
  refine fun _ _ => step_preserves (fun bounded regs _ => ?_) (fun effect bounded => ?_)
  · rwa [State.OffsetBounded, regs]
  · rcases effect.offset_cases with kept | ⟨d, c, p, xs, u, nonempty, done, mean⟩
    · rwa [State.OffsetBounded, kept]
    · rw [State.OffsetBounded, mean]
      exact meanOf_readsDone_bounded done nonempty

/-! ## Reset -/

/-- The state after reset meets the invariant: it is UNINIT and holds nothing. -/
theorem reset_inv : State.reset.Inv :=
  .of_not_ready (by decide) (by decide) rfl rfl rfl rfl

/-- No primitive has been issued at reset. -/
theorem reset_safeTrace : State.reset.SafeTrace := rfl

theorem reset_offsetBounded : State.reset.OffsetBounded := by
  have zero : f64Value State.reset.regs.offset = 0 := (f64IsZero_iff_value _).mp (by decide)
  exact ⟨by decide, by norm_num [zero]⟩

/-- Settles O2. -/
theorem resetMeetsTheInvariants : Obligations.ResetMeetsTheInvariants :=
  ⟨reset_inv, reset_safeTrace, reset_offsetBounded⟩

end Sys2Proof.Machine
end

section
/-!
The clock-high discipline of a READ (10_state.md R35, 40_serial_reader.md R83; O24): closed pulses compose, and every
part of a READ is closed.
-/

namespace Sys2Proof.Machine

/-- A closed list of events leaves no pulse open for the events after it: `pulsesClosed` reads the first events, up to the
end of a pulse, and goes on with the rest. -/
theorem pulsesClosed_append {es : List PortEvent} (h : pulsesClosed es = true) (es' : List PortEvent) :
    pulsesClosed (es ++ es') = pulsesClosed es' := by
  induction es using pulsesClosed.induct <;> simp_all [pulsesClosed]

theorem pulsesClosed_flatMap {α : Type} {f : α → List PortEvent} (h : ∀ a, pulsesClosed (f a) = true) (as : List α) :
    pulsesClosed (as.flatMap f) = true := by
  induction as with
  | nil => rfl
  | cons a as ih => rw [List.flatMap_cons, pulsesClosed_append (h a), ih]

theorem pulsesClosed_waitEvents (d : PinId) (k : Nat) : pulsesClosed (waitEvents d k) = true := by
  induction k with
  | zero => rfl
  | succ k ih => exact ih

theorem pulsesClosed_dataEvents (d c : PinId) (bit : Nat → Level) : pulsesClosed (dataEvents d c bit) = true :=
  pulsesClosed_flatMap (fun i => by simp [dataPulse, pulsesClosed]) _

theorem pulsesClosed_selectorEvents (c : PinId) (k : Nat) : pulsesClosed (selectorEvents c k) = true :=
  pulsesClosed_flatMap (fun _ => by simp [pulsesClosed]) _

/-- The events of a READ that captures a Sample. -/
theorem pulsesClosed_readEvents (d c : PinId) (p : Nat) (r : Nat × (Nat → Level)) :
    pulsesClosed (readEvents d c p r) = true := by
  rw [readEvents, List.append_assoc, List.append_assoc, pulsesClosed_append (pulsesClosed_waitEvents d r.1),
    pulsesClosed_append rfl, pulsesClosed_append (pulsesClosed_dataEvents d c r.2), pulsesClosed_selectorEvents]

/-- The configured bound on a pulse lies below T_SLEEP (00_scope.md R11). -/
theorem tHighMax_lt_tSleep : Config.tHighMax < Config.tSleep :=
  Nat.mod_lt _ (by decide)

/-- Settles O24: a READ issues its wait alone, or its wait and closed pulses. -/
theorem readNeverHoldsTheClockHigh : Obligations.ReadNeverHoldsTheClockHigh := by
  refine ⟨fun s t d c p x read => ?_, tHighMax_lt_tSleep⟩
  cases x with
  | none =>
    obtain ⟨k, levels, -, rfl⟩ := readSample_none read
    exact ⟨_, rfl, pulsesClosed_waitEvents d k⟩
  | some x =>
    obtain ⟨r, levels, rfl⟩ := readSample_some read
    exact ⟨_, rfl, pulsesClosed_readEvents d c p r⟩

end Sys2Proof.Machine
end

section
/-!
The written-by column of 10_state.md R20 (O40): which registers each opcode writes, by cases on `Effect`, and that the
clock changes by a primitive only.
-/

namespace Sys2Proof.Machine

/-- Between the registers `old` and `new` a command of opcode `op` wrote only what R20 lets it write, CLK aside. -/
def WritesOnlyNamed (op : Opcode) (old new : Regs) : Prop :=
  (new.life ≠ old.life → op = .configure ∨ op = .close) ∧
  (new.pwr ≠ old.pwr → op = .configure ∨ op = .powerDown ∨ op = .powerUp ∨ op = .close) ∧
  (new.byteOrder ≠ old.byteOrder → op = .setReadingFormat) ∧
  (new.bitOrder ≠ old.bitOrder → op = .setReadingFormat) ∧
  (new.gain ≠ old.gain → op = .setGainChannel) ∧
  (new.offset ≠ old.offset → op = .tare) ∧
  (new.refUnit ≠ old.refUnit → op = .setReferenceUnit) ∧
  (new.dataPin ≠ old.dataPin → op = .configure) ∧
  (new.clockPin ≠ old.clockPin → op = .configure) ∧
  (new.chipId ≠ old.chipId → op = .configure) ∧
  (new.portOpen ≠ old.portOpen → op = .configure ∨ op = .close)

/-- Any command may write CLK. -/
theorem writesOnlyNamed_clk (op : Opcode) (old : Regs) (w : Wire) : WritesOnlyNamed op old { old with clk := w } := by
  simp [WritesOnlyNamed]

theorem Effect.writesOnlyNamed {i : Instr} {s : State} {st : Status} {regs : Regs} {port : Option Handle}
    {es : List PortEvent} (effect : Effect i s st regs port es) : WritesOnlyNamed i.opcode s.regs regs := by
  cases effect with
  | refused | openFail | inputFail | outputFail | formatInvalid | unitInvalid | gainInvalid | weightInvalid | weighed
    | timedOut => exact writesOnlyNamed_clk _ _ _
  | configured _ _ _ hi | formatSet _ _ _ _ hi | unitSet _ hi | gainSet _ _ hi | tared _ _ _ _ _ hi | slept _ hi
    | woken _ hi | closed _ hi | closedUnused hi =>
    subst hi
    simp [WritesOnlyNamed, Instr.opcode]

/-- Completed READs have issued primitives. -/
theorem flatMap_readEvents_ne_nil {d c : PinId} {p : Nat} {reads : List (Nat × (Nat → Level))} (h : reads ≠ []) :
    reads.flatMap (readEvents d c p) ≠ [] := by
  obtain ⟨r, rest, rfl⟩ := List.exists_cons_of_ne_nil h
  simp [readEvents]

/-- A command that issued no primitive left the clock as it was. -/
theorem Effect.clk_of_silent {i : Instr} {s : State} {st : Status} {regs : Regs} {port : Option Handle}
    {es : List PortEvent} (effect : Effect i s st regs port es) (silent : es = []) : regs.clk = s.regs.clk := by
  cases effect with
  | refused | formatSet | formatInvalid | unitSet | unitInvalid | gainSet | gainInvalid | weightInvalid
    | closedUnused | openFail => rfl
  | inputFail | outputFail | configured | slept | woken | closed => cases silent
  | tared _ _ _ _ _ _ _ _ _ _ _ _ someReads | weighed _ _ _ _ _ _ _ _ _ someReads =>
    exact absurd silent (flatMap_readEvents_ne_nil someReads)
  | timedOut _ _ k reads =>
    obtain ⟨noReads, -⟩ := List.append_eq_nil_iff.mp silent
    obtain rfl : reads = [] := by_contra fun someReads => flatMap_readEvents_ne_nil someReads noReads
    rfl

/-- Settles O40, by cases on the effect of the command. -/
theorem onlyTheNamedCommandsWrite : Obligations.OnlyTheNamedCommandsWrite := by
  intro s t i run
  obtain ⟨st, es, result, effect, trace, -⟩ := exec_effect run
  have silent (same : t.trace = s.trace) : es = [] := by simpa [same] using trace
  obtain ⟨life, pwr, byteOrder, bitOrder, gain, offset, refUnit, dataPin, clockPin, chipId, portOpen⟩ :=
    effect.writesOnlyNamed
  exact ⟨life, pwr, byteOrder, bitOrder, gain, offset, refUnit, dataPin, clockPin, chipId, portOpen,
    fun same => effect.clk_of_silent (silent same)⟩

end Sys2Proof.Machine
end

section
/-!
The model fault of 10_state.md R20 (O13): which commands read a pin that holds no value, and that a first READ whose
wait times out has read no clock pin (40_serial_reader.md R77, R78, R80).
-/

namespace Sys2Proof.Machine

theorem withClockPin_none {s : State} (k : PinId → Result) (h : s.regs.clockPin = none) :
    withClockPin s k = .fault .clockPinNoValue := by
  simp only [withClockPin, h]

theorem withDataPin_none {s : State} (k : PinId → Result) (h : s.regs.dataPin = none) :
    withDataPin s k = .fault .dataPinNoValue := by
  simp only [withDataPin, h]

/-- The three commands that begin with a clock write. -/
theorem exec_clockPin_none {i : Instr} {s : State} (hi : i = .powerDown ∨ i = .powerUp ∨ i = .close)
    (ready : s.regs.life = .ready) (hc : s.regs.clockPin = none) : exec i s = .fault .clockPinNoValue := by
  rcases hi with rfl | rfl | rfl
  · simp [exec, execPowerDown, dispatch_eq, refusal, ready, withClockPin_none _ hc]
  · simp [exec, execPowerUp, dispatch_eq, refusal, ready, withClockPin_none _ hc]
  · simp [exec, execClose, dispatch_eq, refusal, ready, withClockPin_none _ hc]

/-! ## The READs of a command without a pin -/

section runReads

variable {n : Nat} {finish : Option Int × State → State} {s : State}

theorem runReads_dataPin_none (hd : s.regs.dataPin = none) : runReads n finish s = .fault .dataPinNoValue :=
  withDataPin_none _ hd

/-- The first READ is ready, and its first pulse reads CLOCK_PIN. -/
theorem runReads_clockPin_none_ready {d : PinId} (hd : s.regs.dataPin = some d) (hc : s.regs.clockPin = none)
    (wait : (awaitReady d s).1 = true) : runReads n finish s = .fault .clockPinNoValue := by
  rw [runReads, withDataPin_some _ hd, if_neg (by simp [wait]), withClockPin_none _ hc]

/-- The first READ times out before any pulse. -/
theorem runReads_clockPin_none_timeout {d : PinId} (hd : s.regs.dataPin = some d) (hc : s.regs.clockPin = none)
    (wait : (awaitReady d s).1 = false) : runReads n finish s = .next (finish (none, (awaitReady d s).2)) := by
  rw [runReads, withDataPin_some _ hd, if_pos ⟨hc, wait⟩]

end runReads

/-- TARE and GET_WEIGHT in READY and AWAKE run their READs, and answer SensorTimeout when one times out. -/
theorem exec_eq_runReads {i : Instr} {nm1 : BitVec 16} {s : State} (ready : s.regs.life = .ready)
    (awake : s.regs.pwr = .awake) (hi : i = .tare nm1 ∨ i = .getWeight nm1 ∧ f64IsZero s.regs.refUnit = false) :
    ∃ n finish, exec i s = runReads n finish s ∧ ∀ u, finish (none, u) = answered 3 0 u := by
  rcases hi with rfl | ⟨rfl, nonzero⟩
  · exact ⟨sampleCount nm1, finishTare (sampleCount nm1),
      by simp [exec, execTare, dispatch_eq, refusal, ready, awake],
      respond_eq_answered .sensorTimeout 0⟩
  · exact ⟨sampleCount nm1, finishWeight (sampleCount nm1),
      by simp [exec, execGetWeight, dispatch_eq, refusal, ready, awake, nonzero],
      respond_eq_answered .sensorTimeout 0⟩

/-- Settles O13: the commands fault at the read of the pin, and a first READ that times out reads no clock pin. -/
theorem pinWithoutValueIsAFault : Obligations.PinWithoutValueIsAFault := by
  refine fun s ready => ⟨fun hc => ?_, fun nm1 i awake hi => ?_⟩
  · exact ⟨exec_clockPin_none (.inl rfl) ready hc, exec_clockPin_none (.inr (.inl rfl)) ready hc,
      exec_clockPin_none (.inr (.inr rfl)) ready hc⟩
  · obtain ⟨n, finish, run, timeout⟩ := exec_eq_runReads ready awake hi
    rw [run]
    refine ⟨runReads_dataPin_none, fun d hd hc => ⟨fun k hk ones zero => ?_, fun ones => ?_⟩⟩
    · exact runReads_clockPin_none_ready hd hc (by rw [awaitReady_ready d k s hk ones zero])
    · have wait := awaitReady_timeout d s ones
      rw [runReads_clockPin_none_timeout hd hc (by rw [wait]), timeout, wait]
      rfl

end Sys2Proof.Machine
end

section
/-!
The port's contract over a step (20_memory.md R39 to R46, R54; O43): the invariant gives the port before the command, no
handle in UNINIT and the two claims of the session in READY, and each effect's events replay from there.
-/

namespace Sys2Proof.Machine

section session

variable {s : State} {d c : PinId}

/-- In READY the port holds DATA_PIN as an input (10_state.md R31). -/
theorem State.Inv.holds_dataPin (h : s.Inv) (ready : s.regs.life = .ready) (hd : s.regs.dataPin = some d) (w : Wire) :
    ({ port := s.port, clk := w } : PortView).holds d .input = true := by
  obtain ⟨d', c', chip, -, hd', -, -, port⟩ := h.session ready
  obtain rfl : d = d' := Option.some.inj (hd.symm.trans hd')
  simp [PortView.holds, port]

/-- In READY the port holds CLOCK_PIN as an output (10_state.md R31). -/
theorem State.Inv.holds_clockPin (h : s.Inv) (ready : s.regs.life = .ready) (hc : s.regs.clockPin = some c) (w : Wire) :
    ({ port := s.port, clk := w } : PortView).holds c .output = true := by
  obtain ⟨d', c', chip, -, -, hc', -, port⟩ := h.session ready
  obtain rfl : c = c' := Option.some.inj (hc.symm.trans hc')
  simp [PortView.holds, port]

theorem State.Inv.port_ne_none (h : s.Inv) (ready : s.regs.life = .ready) : s.port ≠ none := by
  obtain ⟨_, _, _, -, -, -, -, port⟩ := h.session ready
  simp [port]

theorem State.Inv.clockPin_ne_none (h : s.Inv) (ready : s.regs.life = .ready) : s.regs.clockPin ≠ none := by
  obtain ⟨_, _, _, -, -, hc, -, -⟩ := h.session ready
  simp [hc]

/-- The READs of one command replay against the claims of the session. -/
theorem State.Inv.replay_session_reads (h : s.Inv) (ready : s.regs.life = .ready) (hd : s.regs.dataPin = some d)
    (hc : s.regs.clockPin = some c) (p : Nat) (reads : List (Nat × (Nat → Level))) :
    ({ port := s.port, clk := s.regs.clk } : PortView).replay (reads.flatMap (readEvents d c p)) =
      some { port := s.port, clk := clockAfter s.regs.clk reads } :=
  replay_reads (h.holds_dataPin ready hd) (h.holds_clockPin ready hc) p reads _

end session

/-- The events of every effect keep the port's contract, from the port and the clock before the command to those after
it. -/
theorem Effect.replay_events {i : Instr} {s : State} {st : Status} {regs : Regs} {port : Option Handle}
    {es : List PortEvent} (effect : Effect i s st regs port es) (h : s.Inv) :
    ({ port := s.port, clk := s.regs.clk } : PortView).replay es = some { port := port, clk := regs.clk } := by
  have released (uninit : s.regs.life = .uninit) : s.port = none := h.no_session (by simp [uninit])
  cases effect with
  | refused | formatSet | formatInvalid | unitSet | unitInvalid | gainSet | gainInvalid | weightInvalid
    | closedUnused => rfl
  | openFail _ _ _ _ uninit | inputFail _ _ _ _ uninit | outputFail _ _ _ _ uninit =>
    simp [PortView.replay, PortView.accept, PortView.claim, released uninit]
  | configured _ _ _ _ uninit ne =>
    simp [PortView.replay, PortView.accept, PortView.claim, PortView.holds, released uninit, ne]
  | tared _ _ _ _ reads _ ready _ hd hc _ _ someReads | weighed _ _ _ reads _ ready _ hd hc someReads =>
    simpa [clockAfter, someReads] using h.replay_session_reads ready hd hc _ reads
  | timedOut _ _ k reads _ ready _ hd hc =>
    rcases hc with hc | ⟨unset, -⟩
    · rw [replay_append, h.replay_session_reads ready hd hc, Option.bind_some,
        replay_waitEvents (h.holds_dataPin ready hd)]
    · exact absurd unset (h.clockPin_ne_none ready)
  | slept _ _ ready hc | woken _ _ ready hc =>
    simp [PortView.replay, PortView.accept, h.holds_clockPin ready hc]
  | closed _ _ ready hc =>
    simp [PortView.replay, PortView.accept, h.holds_clockPin ready hc, h.port_ne_none ready]

/-- Events that replay from the port of `s` to the port of `t` extend a trace that keeps the contract. -/
theorem State.SafeTrace.append {s t : State} {es : List PortEvent} (safe : s.SafeTrace) (trace : t.trace = s.trace ++ es)
    (events : ({ port := s.port, clk := s.regs.clk } : PortView).replay es =
      some { port := t.port, clk := t.regs.clk }) : t.SafeTrace := by
  rw [State.SafeTrace, trace, replay_append, safe, Option.bind_some, events]

/-- Settles O43: a wait and an ILLEGAL word issue no primitive, and a command's events replay by cases on its effect. -/
theorem stepKeepsThePortContract : Obligations.StepKeepsThePortContract := by
  intro s t inv safe run
  rcases step_effect run with ⟨-, rfl⟩ | ⟨c, rest, -, ⟨-, rfl⟩ | ⟨i, -, st, es, result, effect, trace, -⟩⟩
  · exact safe
  · exact safe
  · exact safe.append trace (effect.replay_events (inv.of_eq rfl rfl))

end Sys2Proof.Machine
end

section
/-!
The opcode map read both ways (30_encoding.md R61, R63 to R70, R74 to R76; O3 to O9): a word selects a row exactly when
it carries the row's opcode and its must-be-zero bits are 0, and the encoder and the row's operands undo each other. An
assembled command is an encoded instruction, and ARG is an operand of SET_REFERENCE_UNIT alone.
-/

namespace Sys2Proof

/-! ## The rows of the opcode map -/

/-- How many low bits of CMD the row's operands take: the bits between them and OPC must be zero (30_encoding.md R63 to
R68). -/
def Opcode.operandBits : Opcode → Nat
  | .configure => 24
  | .setReadingFormat => 4
  | .setReferenceUnit => 0
  | .tare => 16
  | .getWeight => 16
  | .powerDown => 0
  | .powerUp => 0
  | .close => 0
  | .setGainChannel => 2

theorem operandBits_le (op : Opcode) : op.operandBits ≤ 24 := by cases op <;> decide

/-- The mask covers all bits but the operands'. -/
theorem getLsbD_mask (op : Opcode) {k : Nat} (hk : k < 32) : op.mask.getLsbD k = decide (op.operandBits ≤ k) := by
  have bits : ∀ k < 32, op.mask.getLsbD k = decide (op.operandBits ≤ k) := by cases op <;> decide
  exact bits k hk

/-- The match column is the opcode over 24 zeros. -/
theorem pattern_eq (op : Opcode) : op.pattern = op.code ++ (0 : BitVec 24) := by cases op <;> rfl

theorem selects_iff_and {op : Opcode} {w : Word} : op.selects w = true ↔ w &&& op.mask = op.pattern := beq_iff_eq

/-- The must-be-zero bits of a word that selects a row are 0. -/
theorem reserved_of_selects {op : Opcode} {w : Word} (h : op.selects w = true) :
    w.extractLsb' op.operandBits (24 - op.operandBits) = 0 := by
  have masked := congrArg (BitVec.extractLsb' op.operandBits (24 - op.operandBits)) (selects_iff_and.mp h)
  have mask : op.mask.extractLsb' op.operandBits (24 - op.operandBits) = BitVec.allOnes _ := by cases op <;> decide
  have pattern : op.pattern.extractLsb' op.operandBits (24 - op.operandBits) = 0 := by cases op <;> decide
  rwa [BitVec.extractLsb'_and, mask, BitVec.and_allOnes, pattern] at masked

/-- A word selects a row exactly when it carries the row's opcode and its must-be-zero bits are 0 (30_encoding.md R69,
R70). -/
theorem selects_iff {op : Opcode} {w : Word} :
    op.selects w = true ↔ w.extractLsb' 24 8 = op.code ∧ w.extractLsb' op.operandBits (24 - op.operandBits) = 0 := by
  refine ⟨fun h => ⟨code_of_selects h, reserved_of_selects h⟩, fun ⟨code, reserved⟩ => ?_⟩
  refine selects_iff_and.mpr (BitVec.eq_of_getLsbD_eq fun k hk => ?_)
  rw [BitVec.getLsbD_and, getLsbD_mask op hk, pattern_eq, BitVec.getLsbD_append, ← code]
  by_cases low : k < op.operandBits
  · simp [Nat.not_le.mpr low, Nat.lt_of_lt_of_le low (operandBits_le op)]
  · by_cases high : k < 24
    · have zero : w.getLsbD k = false := by
        have bit := congrArg (BitVec.getLsbD · (k - op.operandBits)) reserved
        simpa [show k - op.operandBits < 24 - op.operandBits by omega, Nat.add_sub_cancel' (Nat.not_lt.mp low),
          -BitVec.getLsbD_eq_getElem] using bit
      simp [high, zero]
    · simp [high, Nat.not_lt.mp low, show k - 24 < 8 by omega, Nat.add_sub_cancel' (Nat.not_lt.mp high)]

/-- A word decodes to a row's operation exactly when it selects the row. -/
theorem decode_opcode_iff {c : Command} {op : Opcode} :
    (decode c).map Instr.opcode = some op ↔ op.selects c.cmd = true := by
  refine ⟨fun h => ?_, fun h => by simp [decode_of_selects h]⟩
  obtain ⟨i, hi, rfl⟩ := Option.map_eq_some_iff.mp h
  obtain ⟨op, hs, rfl⟩ := selects_of_decode hi
  simpa using hs

/-- Settles O6: the table's rows are the model's, and a word carries one opcode. -/
theorem opcodeMapSelectsAtMostOneRow : Obligations.OpcodeMapSelectsAtMostOneRow := by
  refine fun c => ⟨fun row hrow => ?_, fun op op' => selects_unique⟩
  obtain ⟨op, -, rfl⟩ : ∃ op ∈ Opcode.all, (op, op.pattern, op.mask) = row := List.mem_map.mp hrow
  exact selects_iff_and.symm.trans decode_opcode_iff.symm

/-! ## Encoding and decoding -/

/-- The word the encoder writes selects the instruction's own row. -/
theorem selects_encode (i : Instr) : i.opcode.selects (encode i).cmd = true := by
  cases i with
  | configure chip clk dat => exact (Laws.RowMatch.configure chip clk dat).1
  | setReadingFormat bito byteo => exact (Laws.RowMatch.setReadingFormat bito byteo).1
  | setReferenceUnit u => exact (Laws.RowMatch.setReferenceUnit u).1
  | tare nm1 => exact (Laws.RowMatch.tare nm1).1
  | getWeight nm1 => exact (Laws.RowMatch.getWeight nm1).1
  | powerDown => exact Laws.RowMatch.powerDown.1
  | powerUp => exact Laws.RowMatch.powerUp.1
  | close => exact Laws.RowMatch.close.1
  | setGainChannel gc => exact (Laws.RowMatch.setGainChannel gc).1

/-- An operand is read from the bits of its field. -/
theorem extractLsb'_encode {i : Instr} {start len : Nat} {x : BitVec len} (fits : start + len ≤ 24)
    (bits : ∀ k < len, i.fields.getLsbD (start + k) = x.getLsbD k) : (encode i).cmd.extractLsb' start len = x := by
  refine BitVec.eq_of_getLsbD_eq fun k hk => ?_
  rw [BitVec.getLsbD_extractLsb', getLsbD_encode, if_pos (by omega), bits k hk, decide_eq_true hk, Bool.true_and]

/-- The operands of the encoded word are the instruction's. -/
theorem operands_encode (i : Instr) : i.opcode.operands (encode i) = i := by
  cases i with
  | configure chip clk dat =>
    refine (Instr.configure.injEq ..).mpr ⟨extractLsb'_encode (by decide) ?_, extractLsb'_encode (by decide) ?_,
      extractLsb'_encode (by decide) ?_⟩
    all_goals
      intro k hk
      rw [getLsbD_fields_configure]
      grind
  | setReadingFormat bito byteo =>
    refine (Instr.setReadingFormat.injEq ..).mpr ⟨extractLsb'_encode (by decide) ?_, extractLsb'_encode (by decide) ?_⟩
    all_goals
      intro k hk
      rw [getLsbD_fields_setReadingFormat]
      grind
  | tare nm1 | getWeight nm1 =>
    refine congrArg _ (extractLsb'_encode (by decide) fun k hk => ?_)
    exact (getLsbD_fields_count nm1 _).trans (by simp [hk])
  | setGainChannel gc =>
    refine congrArg _ (extractLsb'_encode (by decide) fun k hk => ?_)
    rw [getLsbD_fields_setGainChannel]
    simp [hk]
  | setReferenceUnit | powerDown | powerUp | close => rfl

/-- Settles O4: the encoded word selects the instruction's row, which reads the operands back. -/
theorem decodeInvertsEncode : Obligations.DecodeInvertsEncode := fun i => by
  rw [decode_of_selects (selects_encode i), operands_encode]

/-- Two fields that meet are one field. -/
theorem extractLsb'_append_adjacent (w : Word) (start low high : Nat) :
    w.extractLsb' (start + low) high ++ w.extractLsb' start low = w.extractLsb' start (high + low) :=
  BitVec.extractLsb'_append_extractLsb'_eq_extractLsb' rfl

/-- The fields of the row's reading are CMD[23:0]: the operands, over zeros where the word must be zero. -/
theorem fields_operands {op : Opcode} {c : Command} (h : op.selects c.cmd = true) :
    (op.operands c).fields = c.cmd.extractLsb' 0 24 := by
  have reserved := reserved_of_selects h
  cases op with
  | configure =>
    exact (congrArg (· ++ c.cmd.extractLsb' 0 8) (extractLsb'_append_adjacent c.cmd 8 8 8)).trans
      (extractLsb'_append_adjacent c.cmd 0 8 16)
  | setReadingFormat =>
    have high : (0 : BitVec 20) ++ c.cmd.extractLsb' 2 2 = c.cmd.extractLsb' 2 22 :=
      (congrArg (· ++ c.cmd.extractLsb' 2 2) reserved.symm).trans (extractLsb'_append_adjacent c.cmd 2 2 20)
    exact (congrArg (· ++ c.cmd.extractLsb' 0 2) high).trans (extractLsb'_append_adjacent c.cmd 0 2 22)
  | tare | getWeight =>
    exact (congrArg (· ++ c.cmd.extractLsb' 0 16) reserved.symm).trans (extractLsb'_append_adjacent c.cmd 0 16 8)
  | setGainChannel =>
    exact (congrArg (· ++ c.cmd.extractLsb' 0 2) reserved.symm).trans (extractLsb'_append_adjacent c.cmd 0 2 22)
  | setReferenceUnit | powerDown | powerUp | close => exact reserved.symm

/-- Settles O5: OPC is the row's opcode, the bits below it are the fields, and ARG is SET_REFERENCE_UNIT's operand. -/
theorem encodeInvertsDecode : Obligations.EncodeInvertsDecode := by
  intro c i h
  obtain ⟨op, hs, rfl⟩ := selects_of_decode h
  refine ⟨?_, fun hop => ?_⟩
  · calc (encode (op.operands c)).cmd
        = (op.operands c).opcode.code ++ (op.operands c).fields := rfl
      _ = c.cmd.extractLsb' 24 8 ++ c.cmd.extractLsb' 0 24 := by
          rw [opcode_operands, fields_operands hs, code_of_selects hs]
      _ = c.cmd := BitVec.extractLsb'_append_extractLsb'
  · obtain rfl : op = .setReferenceUnit := (opcode_operands op c).symm.trans hop
    rfl

/-- Settles O3: the decoder evaluated on each word. -/
theorem exampleWordsDecode : Obligations.ExampleWordsDecode := by
  unfold Obligations.ExampleWordsDecode
  decide

/-! ## ILLEGAL words -/

theorem decode_eq_none_iff {c : Command} : decode c = none ↔ ∀ op : Opcode, ¬op.selects c.cmd = true :=
  ⟨fun h _ hs => by simp [decode_of_selects hs] at h,
    fun h => decode_eq_none fun op => Bool.eq_false_of_not_eq_true (h op)⟩

/-- A word whose OPC names a row is ILLEGAL exactly when a must-be-zero bit of the row is 1. -/
theorem decode_eq_none_of_code {op : Opcode} {c : Command} (code : c.cmd.extractLsb' 24 8 = op.code) :
    decode c = none ↔ c.cmd.extractLsb' op.operandBits (24 - op.operandBits) ≠ 0 := by
  refine decode_eq_none_iff.trans ⟨fun h reserved => ?_, fun reserved op' hs => ?_⟩
  · exact h op (selects_iff.mpr ⟨code, reserved⟩)
  · obtain rfl : op = op' := code_injective (code.symm.trans (code_of_selects hs))
    exact reserved (reserved_of_selects hs)

/-- The opcodes of the map fill 0x01 to 0x09. -/
theorem exists_code {opc : BitVec 8} (h : ¬(opc = 0x00 ∨ 0x0A ≤ opc)) : ∃ op : Opcode, opc = op.code := by
  have all : ∀ opc : BitVec 8, ¬(opc = 0x00 ∨ 0x0A ≤ opc) → ∃ op ∈ Opcode.all, opc = op.code := by decide
  obtain ⟨op, -, hop⟩ := all opc h
  exact ⟨op, hop⟩

/-- ILLEGAL words are exactly the two kinds (30_encoding.md R70). -/
theorem decode_eq_none_iff_kinds (c : Command) : decode c = none ↔
    (c.cmd.extractLsb' 24 8 = 0x00 ∨ 0x0A ≤ c.cmd.extractLsb' 24 8) ∨
    (c.cmd.extractLsb' 24 8 = 0x02 ∧ c.cmd.extractLsb' 4 20 ≠ 0) ∨
    (c.cmd.extractLsb' 24 8 ∈ ([0x03, 0x06, 0x07, 0x08] : List (BitVec 8)) ∧ c.cmd.extractLsb' 0 24 ≠ 0) ∨
    (c.cmd.extractLsb' 24 8 ∈ ([0x04, 0x05] : List (BitVec 8)) ∧ c.cmd.extractLsb' 16 8 ≠ 0) ∨
    (c.cmd.extractLsb' 24 8 = 0x09 ∧ c.cmd.extractLsb' 2 22 ≠ 0) := by
  by_cases named : ∃ op : Opcode, c.cmd.extractLsb' 24 8 = op.code
  · obtain ⟨op, code⟩ := named
    rw [decode_eq_none_of_code code, code]
    cases op <;> simp [Opcode.code, Opcode.operandBits]
  · have outside := not_not.mp (mt exists_code named)
    exact iff_of_true (decode_eq_none_iff.mpr fun op hs => named ⟨op, code_of_selects hs⟩) (.inl outside)

/-! ## ARG -/

/-- ARG is an operand of SET_REFERENCE_UNIT alone (30_encoding.md R61). -/
theorem operands_arg {op : Opcode} (h : op ≠ .setReferenceUnit) (w : Word) (a b : F64) :
    op.operands { cmd := w, arg := a } = op.operands { cmd := w, arg := b } := by
  cases op with
  | setReferenceUnit => exact absurd rfl h
  | configure | setReadingFormat | tare | getWeight | powerDown | powerUp | close | setGainChannel => rfl

theorem decode_arg {w : Word} (h : w.extractLsb' 24 8 ≠ 0x03) (a b : F64) :
    decode { cmd := w, arg := a } = decode { cmd := w, arg := b } := by
  by_cases named : ∃ op : Opcode, op.selects w = true
  · obtain ⟨op, hs⟩ := named
    have other : op ≠ .setReferenceUnit := by
      rintro rfl
      exact h (code_of_selects hs)
    rw [decode_of_selects hs, decode_of_selects hs, operands_arg other w a b]
  · have unselected := not_exists.mp named
    rw [decode_eq_none_iff.mpr unselected, decode_eq_none_iff.mpr unselected]

/-! ## The assembler -/

/-- A textual command that assembles to the encoder's word decodes to the instruction. -/
theorem assemble_bind_decode {a : Asm} {i : Instr} (wf : a.wellFormed = true) (word : a.word = (encode i).cmd)
    (arg : a.arg = i.argument) : (assemble a).bind decode = some i := by
  have encoded : assemble a = some (encode i) := by rw [assemble, if_pos wf, word, arg, encode]
  rw [encoded, Option.bind_some, decodeInvertsEncode]

theorem assemble_eq_none {a : Asm} (h : a.wellFormed = false) : assemble a = none := by
  rw [assemble, h, if_neg Bool.false_ne_true]

theorem word_configure (data clock chip : Nat) : (Asm.configure data clock chip).word =
    (encode (.configure (BitVec.ofNat 8 chip) (BitVec.ofNat 8 clock) (BitVec.ofNat 8 data))).cmd :=
  (congrArg (· ++ BitVec.ofNat 8 data) (BitVec.append_assoc ..)).trans (BitVec.append_assoc ..)

theorem word_setReadingFormat {byte bit : Nat} (hbyte : byte ≤ 3) (hbit : bit ≤ 3) :
    (Asm.setReadingFormat byte bit).word =
      (encode (.setReadingFormat (BitVec.ofNat 2 bit) (BitVec.ofNat 2 byte))).cmd := by
  interval_cases byte <;> interval_cases bit <;> decide

theorem word_setGainChannel {g : Nat} (hg : g ≤ 3) :
    (Asm.setGainChannel g).word = (encode (.setGainChannel (BitVec.ofNat 2 g))).cmd := by
  interval_cases g <;> decide

/-- The word of a count, match OR (n - 1) (30_encoding.md R74), is that of format K: NM1 lies within its 16 bits. -/
theorem word_count {i : Instr} {n : Nat} (hn : n ≤ 65536)
    (fields : i.fields = (0 : BitVec 8) ++ BitVec.ofNat 16 (n - 1)) :
    i.opcode.pattern ||| BitVec.ofNat 32 (n - 1) = (encode i).cmd := by
  have low : i.fields.toNat = n - 1 := by
    rw [fields]
    refine (BitVec.toNat_append (0 : BitVec 8) (BitVec.ofNat 16 (n - 1))).trans ?_
    simp [Nat.mod_eq_of_lt (show n - 1 < 65536 by omega)]
  have word : (encode i).cmd.toNat = i.opcode.code.toNat <<< 24 ||| i.fields.toNat := BitVec.toNat_append _ _
  apply BitVec.eq_of_toNat_eq
  rw [word, low, BitVec.toNat_or, pattern_eq, BitVec.toNat_ofNat, Nat.mod_eq_of_lt (by omega)]
  refine congrArg (· ||| (n - 1)) ((BitVec.toNat_append i.opcode.code (0 : BitVec 24)).trans ?_)
  simp

/-- Settles O9: in range the assembled word is the encoder's, out of range the operand check fails. -/
theorem assembledCommandsDecode : Obligations.AssembledCommandsDecode := by
  refine ⟨fun data clock chip => ?_, fun byte bit => ?_,
    fun u => assemble_bind_decode rfl (pattern_eq .setReferenceUnit) rfl, fun n => ?_, fun g => ?_,
    assemble_bind_decode rfl (pattern_eq .powerDown) rfl, assemble_bind_decode rfl (pattern_eq .powerUp) rfl,
    assemble_bind_decode rfl (pattern_eq .close) rfl⟩
  · split
    case isTrue h =>
      exact assemble_bind_decode (by simp [Asm.wellFormed, idInRange, h]) (word_configure data clock chip) rfl
    case isFalse h => exact assemble_eq_none (by simp_all [Asm.wellFormed, idInRange])
  · split
    case isTrue h =>
      exact assemble_bind_decode (by simp [Asm.wellFormed, codeInRange, h]) (word_setReadingFormat h.1 h.2) rfl
    case isFalse h => exact assemble_eq_none (by simp_all [Asm.wellFormed, codeInRange])
  · split
    case isTrue h =>
      have wf : countInRange n = true := by simp [countInRange, h]
      exact ⟨assemble_bind_decode wf (word_count (i := .tare _) h.2 rfl) rfl,
        assemble_bind_decode wf (word_count (i := .getWeight _) h.2 rfl) rfl⟩
    case isFalse h =>
      have wf : countInRange n = false := by simp_all [countInRange]
      exact ⟨assemble_eq_none wf, assemble_eq_none wf⟩
  · split
    case isTrue h => exact assemble_bind_decode (by simp [Asm.wellFormed, codeInRange, h]) (word_setGainChannel h) rfl
    case isFalse h => exact assemble_eq_none (by simp_all [Asm.wellFormed, codeInRange])

end Sys2Proof
end

section
/-!
The step and the decoder (20_memory.md R54, 30_encoding.md R61 and R70; O7, O8, O10): what a step does is fixed by what
the presented command decodes to.
-/

namespace Sys2Proof.Machine

/-! ## One equation for each outcome of the decoder -/

theorem step_of_no_command {s : State} (h : s.commands = []) : step s = .next s := by
  rw [step, takeCommand_nil h]

section presented

variable {s : State} {c : Command} {rest : List Command}

theorem step_of_decode_none (h : s.commands = c :: rest) (illegal : decode c = none) :
    step s = .next (answered 8 0 { s with commands := rest }) := by
  simp only [step, takeCommand_cons h, illegal, execIllegal, raise_eq]
  rfl

theorem step_of_decode_some {i : Instr} (h : s.commands = c :: rest) (legal : decode c = some i) :
    step s = exec i { s with commands := rest } := by
  simp only [step, takeCommand_cons h, legal]

end presented

/-! ## The statements -/

/-- Settles O10: one equation of the step for each outcome of the decoder. -/
theorem stepRunsThePresentedCommand : Obligations.StepRunsThePresentedCommand :=
  ⟨fun _ => step_of_no_command, fun _ _ _ _ => step_of_decode_some, fun _ _ _ _ legal => step_of_decode_some rfl legal⟩

/-- Settles O7: a word without a row decodes to nothing, and the step answers IllegalCommand. -/
theorem illegalWordsAreTheTwoKinds : Obligations.IllegalWordsAreTheTwoKinds :=
  ⟨fun _ _ => decode_opcode_iff.mpr, decode_eq_none_iff_kinds, fun _ _ _ => step_of_decode_none⟩

/-- Settles O8: only SET_REFERENCE_UNIT's row reads ARG, and a step reads a command through the decoder alone. -/
theorem argumentIsIgnoredElsewhere : Obligations.ArgumentIsIgnoredElsewhere := by
  intro s w a b rest other
  refine ⟨decode_arg other a b, ?_⟩
  cases hd : decode { cmd := w, arg := b } with
  | none => rw [step_of_decode_none rfl ((decode_arg other a b).trans hd), step_of_decode_none rfl hd]
  | some i => rw [step_of_decode_some rfl ((decode_arg other a b).trans hd), step_of_decode_some rfl hd]

end Sys2Proof.Machine
end

section
/-!
The SerialBitReader's statements (40_serial_reader.md R77 to R90; O19, O22, O23, O25): the format of the orders, the
value of a captured string, and what one READ does and issues, from its closed form.
-/

namespace Sys2Proof.Machine

/-! ## SET_READING_FORMAT -/

theorem orderOfCode_of_le {v : BitVec 2} (h : v ≤ 1) : orderOfCode v = some (if v = 0 then .msb else .lsb) := by
  revert v
  decide

theorem orderOfCode_of_gt {v : BitVec 2} (h : 1 < v) : orderOfCode v = none := by
  revert v
  decide

section format

variable {bito byteo : BitVec 2} {s : State} (ready : s.regs.life = .ready)

include ready in
/-- In READY the command runs, in either power sub-state. -/
theorem dispatch_setReadingFormat (rule : State → Result) : dispatch .setReadingFormat s rule = rule s := by
  simp [dispatch_eq, refusal, ready]

include ready in
theorem exec_setReadingFormat_some {byte bit : Order} (hbyte : orderOfCode byteo = some byte)
    (hbit : orderOfCode bito = some bit) :
    exec (.setReadingFormat bito byteo) s =
      .next (answered 0 0 { s with regs := { s.regs with byteOrder := byte, bitOrder := bit } }) := by
  simp only [exec, execSetReadingFormat, dispatch_setReadingFormat ready, hbyte, hbit, complete_eq]
  rfl

include ready in
theorem exec_setReadingFormat_none (reserved : orderOfCode byteo = none ∨ orderOfCode bito = none) :
    exec (.setReadingFormat bito byteo) s = .next (answered 4 0 s) := by
  simp only [exec, execSetReadingFormat, dispatch_setReadingFormat ready]
  rcases reserved with h | h
  · rw [h]
    exact raise_eq _ _
  · rw [h]
    cases orderOfCode byteo with
    | none => exact raise_eq _ _
    | some _ => exact raise_eq _ _

end format

/-- Settles O19: both codes name an order, or one of them is reserved. -/
theorem setReadingFormatWritesBothOrNeither : Obligations.SetReadingFormatWritesBothOrNeither :=
  fun _ _ _ ready =>
    ⟨fun hbyte hbit => exec_setReadingFormat_some ready (orderOfCode_of_le hbyte) (orderOfCode_of_le hbit),
      fun reserved => exec_setReadingFormat_none ready (reserved.imp orderOfCode_of_gt orderOfCode_of_gt)⟩

/-! ## The value of a captured string -/

theorem getLsbD_reverse24 (u : Raw) {i : Nat} (hi : i < 24) : (reverse24 u).getLsbD i = u.getLsbD (23 - i) := by
  simp [reverse24, hi]

/-- The sign extension of a 24-bit string is its two's complement value. -/
theorem sext24_eq_toInt (u : Raw) : sext24 u = u.toInt := by
  rw [sext24, BitVec.toInt_eq_msb_cond, BitVec.msb_eq_getLsbD_last]
  norm_num

/-- Settles O25: the range of a Sample is that of a 24-bit two's complement value. -/
theorem sampleIsReorderedThenSignExtended : Obligations.SampleIsReorderedThenSignExtended := by
  intro acc
  refine ⟨fun i hi => getLsbD_reverse24 acc hi, rfl, rfl, fun negative => ?_, fun nonnegative => ?_, ?_, ?_⟩
  · rw [sext24, if_pos negative]
    rfl
  · rw [sext24, if_neg (Bool.eq_false_iff.mp nonnegative)]
  · simpa [sext24_eq_toInt] using acc.le_toInt
  · have below := acc.toInt_lt
    rw [sext24_eq_toInt]
    omega

/-! ## What a READ does -/

/-- Settles O22: a READ's two closed forms, by whether a level of 0 comes within the deadline. -/
theorem readCapturesOneSampleOrTimesOut : Obligations.ReadCapturesOneSampleOrTimesOut := by
  refine fun s d c p _ _ => ⟨fun k hk ones zero => ?_, fun ones => ?_, first_zero_or_ones _ _⟩
  · obtain ⟨acc, bits, run⟩ := readSample_ready d c p k s hk ones zero
    exact ⟨acc, bits, by simp [run, afterRead, decodeSample]⟩
  · exact readSample_timeout d c p s ones

/-! ## How many primitives a READ issues -/

theorem length_dataEvents (d c : PinId) (bit : Nat → Level) : (dataEvents d c bit).length = 72 := by
  simp [dataEvents, dataPulse]

theorem length_selectorEvents (c : PinId) (k : Nat) : (selectorEvents c k).length = 2 * k := by
  simp [selectorEvents, Nat.mul_comm]

theorem head_dataEvents (d c : PinId) (bit : Nat → Level) : (dataEvents d c bit).head? = some (.write c true) := rfl

/-- The ready wait makes no edge. -/
theorem risingEdges_waitEvents (w : Wire) (d : PinId) (k : Nat) (es : List PortEvent) :
    risingEdges w (waitEvents d k ++ es) = risingEdges w es := by
  induction k with
  | zero => rfl
  | succ k ih => exact ih

/-- Pulses that each make one rising edge and leave the clock low make as many edges as there are pulses. -/
theorem risingEdges_flatMap {α : Type} {f : α → List PortEvent}
    (pulse : ∀ a es, risingEdges (.driven false) (f a ++ es) = 1 + risingEdges (.driven false) es) (as : List α)
    (es : List PortEvent) :
    risingEdges (.driven false) (as.flatMap f ++ es) = as.length + risingEdges (.driven false) es := by
  induction as with
  | nil => simp
  | cons a as ih =>
    rw [List.flatMap_cons, List.append_assoc, pulse, ih, List.length_cons]
    omega

theorem risingEdges_dataEvents (d c : PinId) (bit : Nat → Level) (es : List PortEvent) :
    risingEdges (.driven false) (dataEvents d c bit ++ es) = 24 + risingEdges (.driven false) es :=
  risingEdges_flatMap (fun _ _ => rfl) (List.range 24) es

theorem risingEdges_selectorEvents (c : PinId) (k : Nat) :
    risingEdges (.driven false) (selectorEvents c k) = k := by
  simpa [selectorEvents, risingEdges] using
    risingEdges_flatMap (f := fun _ : Nat => [.write c true, .write c false]) (fun _ _ => rfl) (List.range k) []

/-- Settles O23: the events of a READ are its wait and its pulses, or its wait alone. -/
theorem readIssuesTheCountedPrimitives : Obligations.ReadIssuesTheCountedPrimitives := by
  refine fun s t d c p low _ clock => ⟨fun x read => ?_, fun read => ?_⟩
  · obtain ⟨⟨ones, bit⟩, levels, rfl⟩ := readSample_some read
    have edges : risingEdges s.regs.clk
        ((waitEvents d ones ++ [.read d false]) ++ (dataEvents d c bit ++ selectorEvents c (p - 24))) = p := by
      rw [clock, List.append_assoc, risingEdges_waitEvents]
      calc risingEdges (.driven false) (dataEvents d c bit ++ selectorEvents c (p - 24))
          = 24 + (p - 24) := by rw [risingEdges_dataEvents, risingEdges_selectorEvents]
        _ = p := by omega
    refine ⟨ones + 1, waitEvents d ones ++ [.read d false], dataEvents d c bit ++ selectorEvents c (p - 24),
      Nat.succ_pos ones, ?_, rfl, ?_, ?_, ?_, edges, rfl⟩
    · simp [readEvents]
    · simp [waitEvents]
    · rw [List.length_append, length_dataEvents, length_selectorEvents]
    · rw [List.head?_append, head_dataEvents, Option.some_or]
  · obtain ⟨k, levels, positive, rfl⟩ := readSample_none read
    exact ⟨k, positive, rfl, rfl⟩

end Sys2Proof.Machine
end

section
/-!
BYTE_ORDER is read by no part of a READ, and by no part of TARE and GET_WEIGHT (40_serial_reader.md R86; O26): setting
it commutes with every operation they are made of.
-/

namespace Sys2Proof.Machine

/-- The state `s` with another BYTE_ORDER. -/
def State.withByteOrder (o : Order) (s : State) : State := { s with regs := { s.regs with byteOrder := o } }

@[simp] theorem withByteOrder_life (o : Order) (s : State) : (s.withByteOrder o).regs.life = s.regs.life := rfl
@[simp] theorem withByteOrder_pwr (o : Order) (s : State) : (s.withByteOrder o).regs.pwr = s.regs.pwr := rfl
@[simp] theorem withByteOrder_gain (o : Order) (s : State) : (s.withByteOrder o).regs.gain = s.regs.gain := rfl
@[simp] theorem withByteOrder_refUnit (o : Order) (s : State) :
    (s.withByteOrder o).regs.refUnit = s.regs.refUnit := rfl
@[simp] theorem withByteOrder_dataPin (o : Order) (s : State) :
    (s.withByteOrder o).regs.dataPin = s.regs.dataPin := rfl
@[simp] theorem withByteOrder_clockPin (o : Order) (s : State) :
    (s.withByteOrder o).regs.clockPin = s.regs.clockPin := rfl

/-! ## READ -/

section reads

variable (o : Order) (d c : PinId) (s : State)

theorem pinWrite_withByteOrder (l : Level) :
    pinWrite c l (s.withByteOrder o) = (pinWrite c l s).withByteOrder o := rfl

theorem pinRead_withByteOrder :
    pinRead d (s.withByteOrder o) = Prod.map id (State.withByteOrder o) (pinRead d s) := rfl

theorem drawDeadline_withByteOrder :
    drawDeadline (s.withByteOrder o) = Prod.map id (State.withByteOrder o) (drawDeadline s) := rfl

theorem readyWait_withByteOrder (waits : Nat) :
    readyWait d waits (s.withByteOrder o) = Prod.map id (State.withByteOrder o) (readyWait d waits s) := by
  induction waits generalizing s with
  | zero => rfl
  | succ waits ih =>
    simp only [readyWait, pinRead_withByteOrder, Prod.map_fst, Prod.map_snd, id_eq, ih]
    split <;> rfl

theorem awaitReady_withByteOrder :
    awaitReady d (s.withByteOrder o) = Prod.map id (State.withByteOrder o) (awaitReady d s) := by
  simp only [awaitReady, drawDeadline_withByteOrder, Prod.map_fst, Prod.map_snd, id_eq, readyWait_withByteOrder]

theorem dataPhase_withByteOrder (pulses : Nat) (acc : Raw) :
    dataPhase d c pulses acc (s.withByteOrder o) =
      Prod.map id (State.withByteOrder o) (dataPhase d c pulses acc s) := by
  induction pulses generalizing acc s with
  | zero => rfl
  | succ pulses ih =>
    simp only [dataPhase, pinWrite_withByteOrder, pinRead_withByteOrder, Prod.map_fst, Prod.map_snd, id_eq, ih]

theorem selectorPhase_withByteOrder (pulses : Nat) :
    selectorPhase c pulses (s.withByteOrder o) = (selectorPhase c pulses s).withByteOrder o := by
  induction pulses generalizing s with
  | zero => rfl
  | succ pulses ih => simp only [selectorPhase, pinWrite_withByteOrder, ih]

/-- BYTE_ORDER has no part in a READ: only BIT_ORDER decodes the capture. -/
theorem readSample_withByteOrder (p : Nat) :
    readSample d c p (s.withByteOrder o) = Prod.map id (State.withByteOrder o) (readSample d c p s) := by
  simp only [readSample, awaitReady_withByteOrder, Prod.map_fst, Prod.map_snd, id_eq, dataPhase_withByteOrder,
    selectorPhase_withByteOrder]
  split <;> rfl

theorem sumReads_withByteOrder (p n : Nat) (sum : Int) :
    sumReads d c p n sum (s.withByteOrder o) = Prod.map id (State.withByteOrder o) (sumReads d c p n sum s) := by
  induction n generalizing sum s with
  | zero => rfl
  | succ n ih =>
    simp only [sumReads, readSample_withByteOrder, Prod.map_fst, Prod.map_snd, id_eq]
    cases (readSample d c p s).1 with
    | none => rfl
    | some sample => exact ih _ _

end reads

/-! ## Commands -/

/-- Another BYTE_ORDER before a rule gives the same next state, with that BYTE_ORDER. -/
def IgnoresByteOrder (rule : State → Result) : Prop :=
  ∀ (o : Order) (s t : State), rule s = .next t → rule (s.withByteOrder o) = .next (t.withByteOrder o)

/-- DISPATCH reads LIFE and PWR alone. -/
theorem ignoresByteOrder_dispatch {rule : State → Result} (h : IgnoresByteOrder rule) (op : Opcode) :
    IgnoresByteOrder (dispatch op · rule) := by
  intro o s t run
  change dispatch op (s.withByteOrder o) rule = _
  rw [dispatch_eq, withByteOrder_life, withByteOrder_pwr]
  rcases dispatch_cases run with ⟨st, refused, rfl⟩ | ⟨runs, run⟩
  · rw [refused]
    rfl
  · rw [runs]
    exact h o s t run

/-- The READs of one command ignore BYTE_ORDER when what follows them does. -/
theorem ignoresByteOrder_runReads {finish : Option Int × State → State}
    (h : ∀ o r, finish (Prod.map id (State.withByteOrder o) r) = (finish r).withByteOrder o) (n : Nat) :
    IgnoresByteOrder (runReads n finish) := by
  intro o s t run
  obtain ⟨d, hd, run⟩ := withDataPin_cases run
  rw [runReads, withDataPin_some _ ((withByteOrder_dataPin o s).trans hd), awaitReady_withByteOrder,
    withByteOrder_clockPin, Prod.map_fst, id_eq]
  split at run
  · next stop =>
    cases run
    rw [if_pos stop]
    exact congrArg _ (h o (none, (awaitReady d s).2))
  · next goes =>
    obtain ⟨c, hc, run⟩ := withClockPin_cases run
    cases run
    rw [if_neg goes, withClockPin_some _ ((withByteOrder_clockPin o s).trans hc), withByteOrder_gain,
      sumReads_withByteOrder, h]

theorem finishTare_withByteOrder (n : Nat) (o : Order) (r : Option Int × State) :
    finishTare n (Prod.map id (State.withByteOrder o) r) = (finishTare n r).withByteOrder o := by
  obtain ⟨_ | sum, u⟩ := r <;> rfl

theorem respondWeight_withByteOrder (weight : Option F64) (o : Order) (s : State) :
    respondWeight weight (s.withByteOrder o) = (respondWeight weight s).withByteOrder o := by
  cases weight <;> rfl

theorem finishWeight_withByteOrder (n : Nat) (o : Order) (r : Option Int × State) :
    finishWeight n (Prod.map id (State.withByteOrder o) r) = (finishWeight n r).withByteOrder o := by
  obtain ⟨_ | sum, u⟩ := r
  · rfl
  · exact respondWeight_withByteOrder _ o u

theorem ignoresByteOrder_tare (nm1 : BitVec 16) : IgnoresByteOrder (exec (.tare nm1)) :=
  ignoresByteOrder_dispatch (ignoresByteOrder_runReads (finishTare_withByteOrder _) _) .tare

theorem ignoresByteOrder_getWeight (nm1 : BitVec 16) : IgnoresByteOrder (exec (.getWeight nm1)) := by
  refine ignoresByteOrder_dispatch (fun o s t run => ?_) .getWeight
  rw [withByteOrder_refUnit]
  split at run
  · next zero =>
    cases run
    rw [if_pos zero]
    rfl
  · next nonzero =>
    rw [if_neg nonzero]
    exact ignoresByteOrder_runReads (finishWeight_withByteOrder _) _ o s t run

/-- Settles O26: setting BYTE_ORDER commutes with a READ, and with the READs and the response of a command. -/
theorem byteOrderHasNoEffect : Obligations.ByteOrderHasNoEffect := by
  refine fun s o => ⟨fun d c p x t read => ?_,
    fun nm1 t => ⟨ignoresByteOrder_tare nm1 o s t, ignoresByteOrder_getWeight nm1 o s t⟩⟩
  exact (readSample_withByteOrder o d c s p).trans (by rw [read]; rfl)

end Sys2Proof.Machine
end

section
/-!
The GainChannelSelector's command SET_GAIN_CHANNEL (41_gain_selector.md R98; O20): the mode each code names, and the
response of the command in READY.
-/

namespace Sys2Proof.Machine

/-- Only code 3 is reserved (30_encoding.md R66). -/
theorem gainOfCode_of_ne_three {v : BitVec 2} (h : v ≠ 3) :
    gainOfCode v = some (if v = 0 then .a128 else if v = 1 then .b32 else .a64) := by
  revert v
  decide

theorem gainOfCode_three : gainOfCode 3 = none := rfl

section setGainChannel

variable {gc : BitVec 2} {s : State} (ready : s.regs.life = .ready)

include ready in
/-- In READY the command runs, in either power sub-state. -/
theorem dispatch_setGainChannel (rule : State → Result) : dispatch .setGainChannel s rule = rule s := by
  simp [dispatch_eq, refusal, ready]

include ready in
theorem exec_setGainChannel_some {g : Gain} (named : gainOfCode gc = some g) :
    exec (.setGainChannel gc) s = .next (answered 0 0 { s with regs := { s.regs with gain := g } }) := by
  simp only [exec, execSetGainChannel, dispatch_setGainChannel ready, named]
  exact complete_eq .ok _

include ready in
theorem exec_setGainChannel_none (reserved : gainOfCode gc = none) :
    exec (.setGainChannel gc) s = .next (answered 4 0 s) := by
  simp only [exec, execSetGainChannel, dispatch_setGainChannel ready, reserved]
  exact raise_eq .invalidFormat s

end setGainChannel

/-- Settles O20: the code names a mode, or it is the reserved code 3. -/
theorem setGainChannelWritesTheMode : Obligations.SetGainChannelWritesTheMode := by
  refine fun s gc ready => ⟨fun named => ?_, fun reserved => ?_⟩
  · exact exec_setGainChannel_some ready (gainOfCode_of_ne_three named)
  · subst reserved
    exact exec_setGainChannel_none ready gainOfCode_three

end Sys2Proof.Machine
end

section
/-!
The CalibrationState and the WeightConverter (42_calibration.md R103 to R109; O21, O27, O28, O29): which patterns
SET_REFERENCE_UNIT rejects, TARE and GET_WEIGHT by the outcome of their READs, and what the two leave as it was.
-/

namespace Sys2Proof.Machine

/-! ## SET_REFERENCE_UNIT -/

/-- Only +0.0 and -0.0 compare equal to 0 (42_calibration.md R104). -/
theorem f64IsZero_iff_pattern (u : F64) :
    f64IsZero u = true ↔ u = 0x0000000000000000 ∨ u = 0x8000000000000000 := by
  have bound := u.isLt
  simp only [f64IsZero, f64Exp_eq, f64Frac_eq, Bool.and_eq_true, beq_iff_eq, ← BitVec.toNat_inj,
    BitVec.reduceToNat]
  omega

section setReferenceUnit

variable {u : F64} {s : State} (ready : s.regs.life = .ready)

include ready in
/-- In READY the command runs, in either power sub-state. -/
theorem dispatch_setReferenceUnit (rule : State → Result) : dispatch .setReferenceUnit s rule = rule s := by
  simp [dispatch_eq, refusal, ready]

include ready in
theorem exec_setReferenceUnit_zero (zero : f64IsZero u = true) :
    exec (.setReferenceUnit u) s = .next (answered 5 0 s) := by
  simp only [exec, execSetReferenceUnit, dispatch_setReferenceUnit ready, if_pos zero]
  exact raise_eq .invalidReferenceUnit s

include ready in
theorem exec_setReferenceUnit_nonzero (nonzero : ¬f64IsZero u = true) :
    exec (.setReferenceUnit u) s = .next (answered 0 0 { s with regs := { s.regs with refUnit := u } }) := by
  simp only [exec, execSetReferenceUnit, dispatch_setReferenceUnit ready, if_neg nonzero]
  exact complete_eq .ok _

end setReferenceUnit

/-- Settles O21: the two zeros are the patterns that compare equal to 0. -/
theorem setReferenceUnitRejectsOnlyZeros : Obligations.SetReferenceUnitRejectsOnlyZeros := by
  refine fun s u ready => ⟨fun zero => ?_, fun plus minus => ?_⟩
  · exact exec_setReferenceUnit_zero ready ((f64IsZero_iff_pattern u).mpr zero)
  · exact exec_setReferenceUnit_nonzero ready ((f64IsZero_iff_pattern u).not.mpr (not_or.mpr ⟨plus, minus⟩))

/-! ## The READs of TARE and GET_WEIGHT -/

/-- P by GAIN, in the claims' terms (41_gain_selector.md R92). -/
theorem readPulses_eq (g : Gain) : readPulses g = pulsesPerRead g := by cases g <;> rfl

section reads

variable {n : Nat} {finish : Option Int × State → State} {s u t : State} {d c : PinId} {xs : List Int}

/-- The READs of one command, all successful. -/
theorem runReads_of_allRead (hd : s.regs.dataPin = some d) (hc : s.regs.clockPin = some c)
    (all : AllRead n d c xs s u) : runReads n finish s = .next (finish (some xs.sum, u)) := by
  obtain ⟨rfl, done⟩ := all
  rw [runReads_pins hd hc, sumReads_done 0 done, zero_add]

/-- The READs of one command when one of them times out. -/
theorem runReads_of_timedOut (hd : s.regs.dataPin = some d) (hc : s.regs.clockPin = some c)
    (stop : TimedOut n d c s t) : runReads n finish s = .next (finish (none, t)) := by
  obtain ⟨xs, u, len, done, last⟩ := stop
  rw [runReads_pins hd hc, sumReads_timeout 0 len done last]

/-- READs write no register but CLK: OFFSET and REF_UNIT stay. -/
theorem AllRead.calibration (hn : 0 < n) (all : AllRead n d c xs s u) :
    u.regs.offset = s.regs.offset ∧ u.regs.refUnit = s.regs.refUnit := by
  obtain ⟨es, levels, deadlines, rfl⟩ := all.frame hn
  exact ⟨rfl, rfl⟩

theorem TimedOut.offset (stop : TimedOut n d c s t) : t.regs.offset = s.regs.offset := by
  obtain ⟨clk, es, levels, deadlines, -, rfl⟩ := stop.frame
  rfl

end reads

/-! ## TARE and GET_WEIGHT in READY and AWAKE -/

section awake

variable {s u t : State} {nm1 : BitVec 16} {d c : PinId} {xs : List Int}

theorem exec_tare_eq_runReads (ready : s.regs.life = .ready) (awake : s.regs.pwr = .awake) :
    exec (.tare nm1) s = runReads (sampleCount nm1) (finishTare (sampleCount nm1)) s := by
  simp [exec, execTare, dispatch_eq, refusal, ready, awake]

theorem exec_getWeight_zero (ready : s.regs.life = .ready) (awake : s.regs.pwr = .awake)
    (zero : f64IsZero s.regs.refUnit = true) : exec (.getWeight nm1) s = .next (answered 5 0 s) := by
  simp only [exec, execGetWeight, dispatch_eq, refusal, ready, awake, if_pos zero]
  exact raise_eq .invalidReferenceUnit s

theorem exec_getWeight_eq_runReads (ready : s.regs.life = .ready) (awake : s.regs.pwr = .awake)
    (nonzero : f64IsZero s.regs.refUnit = false) :
    exec (.getWeight nm1) s = runReads (sampleCount nm1) (finishWeight (sampleCount nm1)) s := by
  simp [exec, execGetWeight, dispatch_eq, refusal, ready, awake, nonzero]

theorem finishTare_none (n : Nat) (u : State) : finishTare n (none, u) = answered 3 0 u :=
  respond_eq_answered .sensorTimeout 0 u

theorem finishTare_some (n : Nat) (sum : Int) (u : State) :
    finishTare n (some sum, u) = answered 0 0 { u with regs := { u.regs with offset := meanOf sum n } } :=
  respond_eq_answered .ok 0 _

theorem finishWeight_none (n : Nat) (u : State) : finishWeight n (none, u) = answered 3 0 u :=
  respond_eq_answered .sensorTimeout 0 u

theorem weightOf_eq_bind (m offset refUnit : F64) :
    weightOf m offset refUnit = (fsub m offset).bind (fun d => fdiv d refUnit) := by
  unfold weightOf
  cases fsub m offset <;> rfl

theorem respondWeight_some (w : F64) (u : State) : respondWeight (some w) u = answered 0 w u :=
  respond_eq_answered .ok w u

theorem respondWeight_none (u : State) :
    ∃ nan : F64, f64IsNaN nan = true ∧
      respondWeight none u = answered 0 nan { u with env := { u.env with nans := u.env.nans + 1 } } :=
  ⟨_, isNaN_nanFrom _, respond_eq_answered .ok _ _⟩

/-- The response of a GET_WEIGHT whose READs all succeeded, with the calibration of the state it began in. -/
theorem exec_getWeight_of_allRead (ready : s.regs.life = .ready) (awake : s.regs.pwr = .awake)
    (nonzero : f64IsZero s.regs.refUnit = false) (hd : s.regs.dataPin = some d) (hc : s.regs.clockPin = some c)
    (all : AllRead (sampleCount nm1) d c xs s u) :
    exec (.getWeight nm1) s =
      .next (respondWeight
        ((fsub (meanOf xs.sum (sampleCount nm1)) s.regs.offset).bind (fun m => fdiv m s.regs.refUnit)) u) := by
  obtain ⟨offset, refUnit⟩ := all.calibration (Nat.succ_pos _)
  rw [exec_getWeight_eq_runReads ready awake nonzero, runReads_of_allRead hd hc all, ← weightOf_eq_bind,
    ← offset, ← refUnit]
  rfl

end awake

/-- Settles O27: the READs all succeed, or one of them is the first to time out. -/
theorem tareStoresTheMeanOfItsReads : Obligations.TareStoresTheMeanOfItsReads := by
  intro s nm1 d c ready awake hd hc
  rw [readPulses_eq, exec_tare_eq_runReads ready awake]
  refine ⟨fun xs u len done => ?_, fun xs u t len done last => ?_, reads_done_or_timeout d c _ _ s⟩
  · have all : AllRead (sampleCount nm1) d c xs s u := ⟨len, done⟩
    rw [runReads_of_allRead hd hc all, finishTare_some, sampleCount]
  · have stop : TimedOut (sampleCount nm1) d c s t := ⟨xs, u, len, done, last⟩
    exact ⟨by rw [runReads_of_timedOut hd hc stop, finishTare_none], stop.offset⟩

/-- Settles O28: REF_UNIT is a zero, the READs all succeed, or one of them is the first to time out. -/
theorem getWeightAnswersTheCalibratedMean : Obligations.GetWeightAnswersTheCalibratedMean := by
  intro s nm1 d c ready awake hd hc
  rw [readPulses_eq]
  refine ⟨exec_getWeight_zero ready awake, fun nonzero => ⟨fun xs u len done => ?_, fun xs u t len done last => ?_⟩,
    reads_done_or_timeout d c _ _ s⟩
  · rw [exec_getWeight_of_allRead ready awake nonzero hd hc ⟨len, done⟩, sampleCount]
    refine ⟨fun w weight => by rw [weight, respondWeight_some], fun isNaN => ?_⟩
    obtain ⟨nan, hnan, response⟩ := respondWeight_none u
    exact ⟨nan, hnan, by rw [isNaN, response]⟩
  · have stop : TimedOut (sampleCount nm1) d c s t := ⟨xs, u, len, done, last⟩
    rw [exec_getWeight_eq_runReads ready awake nonzero, runReads_of_timedOut hd hc stop, finishWeight_none]

/-! ## The frame -/

/-- TARE and GET_WEIGHT write CLK, and TARE with OK also OFFSET. -/
theorem Effect.calibration_frame {i : Instr} {s : State} {st : Status} {regs : Regs} {port : Option Handle}
    {es : List PortEvent} (effect : Effect i s st regs port es) (hi : i.opcode = .tare ∨ i.opcode = .getWeight) :
    regs = { s.regs with offset := regs.offset, clk := regs.clk } ∧ port = s.port ∧
      (regs.offset = s.regs.offset ∨ i.opcode = .tare ∧ st = .ok) := by
  cases effect with
  | refused | timedOut | weightInvalid | weighed => exact ⟨rfl, rfl, .inl rfl⟩
  | tared _ _ _ _ _ hi' => exact ⟨rfl, rfl, .inr ⟨hi' ▸ rfl, rfl⟩⟩
  | openFail _ _ _ hi' | inputFail _ _ _ hi' | outputFail _ _ _ hi' | configured _ _ _ hi' | formatSet _ _ _ _ hi'
    | formatInvalid _ _ hi' | unitSet _ hi' | unitInvalid _ hi' | gainSet _ _ hi' | gainInvalid _ hi' | slept _ hi'
    | woken _ hi' | closed _ hi' | closedUnused hi' =>
    subst hi'
    simp [Instr.opcode] at hi

/-- Settles O29, by cases on the effect of the command. -/
theorem tareAndGetWeightFrame : Obligations.TareAndGetWeightFrame := by
  refine fun s t nm1 => ⟨fun run => ?_, fun run => ?_⟩
  · obtain ⟨st, es, result, effect, trace, commands, responses⟩ := exec_effect run
    obtain ⟨regs, port, offset⟩ := effect.calibration_frame (.inl rfl)
    refine ⟨regs, port, commands, ⟨es, trace.symm⟩, _, responses, fun failed => ?_⟩
    rw [status_of_respWord] at failed
    exact offset.resolve_right fun ok => failed (by rw [ok.2]; rfl)
  · obtain ⟨st, es, result, effect, trace, commands, -⟩ := exec_effect run
    obtain ⟨regs, port, offset⟩ := effect.calibration_frame (.inr rfl)
    have kept : t.regs.offset = s.regs.offset := offset.resolve_right fun ok => by cases ok.1
    rw [kept] at regs
    exact ⟨regs, port, commands, es, trace.symm⟩

end Sys2Proof.Machine
end

section
/-!
The mean and the weight as binary64 values (42_calibration.md R100 to R102, R105; O30, O31, O34): the mean of a multiple
of n is exact, the quotient of the exact sum and the exact count is the mean, and with finite operands the weight is a
NaN for a NaN REF_UNIT only.
-/

namespace Sys2Proof.Machine

/-! ## The mean -/

theorem f64Sign_meanOf (sum : Int) (n : Nat) : f64Sign (meanOf sum n) = decide (sum < 0) :=
  f64Sign_pack _ _ (roundMagnitude_lt _ _)

theorem meanOf_zero {n : Nat} (hn : 0 < n) : meanOf 0 n = 0x0000000000000000 := by
  have magnitude : roundMagnitude ((0 : Int).natAbs * unitsPerOne) n = 0 :=
    roundMagnitude_exact _ _ 0 hn (by norm_num) (by simp [magnitudeUnits])
  rw [meanOf, rne64, magnitude]
  rfl

section exact

variable {n : Nat} {v : Int} (hn : 0 < n) (hv : v.natAbs < 2 ^ 53)

include hn hv

/-- The mean of n times V over n has V's units, for every V of at most 53 bits. -/
theorem meanOf_mul_units :
    f64IsFinite (meanOf (n * v) n) = true ∧ f64Units (meanOf (n * v) n) = v.natAbs * unitsPerOne := by
  obtain ⟨m, finite, units⟩ := exists_magnitude v.natAbs hv
  have magnitude : roundMagnitude ((n * v).natAbs * unitsPerOne) n = m :=
    roundMagnitude_exact _ _ m hn finite (by rw [units, Int.natAbs_mul, Int.natAbs_natCast, Nat.mul_assoc])
  have pattern : (meanOf (n * v) n).toNat % 2 ^ 63 = m := by
    rw [meanOf, rne64, magnitude]
    exact magnitude_pack _ _ (by omega)
  exact ⟨by rw [f64IsFinite_iff, pattern]; exact finite, by rw [f64Units_eq, pattern, units]⟩

/-- The mean of n times V over n is V, for every V of at most 53 bits. -/
theorem f64Value_meanOf_mul : f64Value (meanOf (n * v) n) = v := by
  have units := (meanOf_mul_units hn hv).2
  have sign : decide (n * v < 0) = decide (v < 0) := by simp [mul_neg_iff, hn]
  have value : f64Int (meanOf (n * v) n) = v * unitsPerOne := by
    rw [f64Int, f64Sign_meanOf, units, sign, Nat.cast_mul]
    rcases lt_or_ge v 0 with neg | nonneg
    · rw [if_pos (by simpa using neg), Int.ofNat_natAbs_of_nonpos neg.le]
      ring
    · rw [if_neg (by simpa using nonneg), Int.natAbs_of_nonneg nonneg]
  have scaled := f64Int_eq (meanOf (n * v) n)
  rw [value, Int.cast_mul, Int.cast_natCast] at scaled
  exact (mul_right_cancel₀ unitsPerOne_cast_pos.ne' scaled).symm

end exact

section one

variable {v : Int} (hv : v.natAbs < 2 ^ 53)

include hv

/-- f64(V), the mean of V over 1, has V's units (42_calibration.md R100). -/
theorem meanOf_one_units : f64IsFinite (meanOf v 1) = true ∧ f64Units (meanOf v 1) = v.natAbs * unitsPerOne := by
  simpa using meanOf_mul_units one_pos hv

theorem f64Value_meanOf_one : f64Value (meanOf v 1) = v := by simpa using f64Value_meanOf_mul one_pos hv

end one

/-- fdiv(f64(sum), f64(n)) is the mean, bit for bit: both operands are exact, and their units cancel. -/
theorem fdiv_meanOf_one {sum : Int} {n : Nat} (hn : 0 < n) (hsum : sum.natAbs < 2 ^ 53)
    (count : (n : Int).natAbs < 2 ^ 53) : fdiv (meanOf sum 1) (meanOf n 1) = some (meanOf sum n) := by
  obtain ⟨finSum, unitsSum⟩ := meanOf_one_units hsum
  obtain ⟨finCount, unitsCount⟩ := meanOf_one_units count
  have nonzero : ¬f64IsZero (meanOf n 1) = true := by
    simp [f64IsZero_iff, unitsCount, hn.ne', unitsPerOne_pos.ne']
  rw [fdiv_of_isFinite finSum finCount, if_neg nonzero, f64Sign_meanOf, f64Sign_meanOf, unitsSum, unitsCount,
    Int.natAbs_natCast, roundMagnitude_scale _ _ _ unitsPerOne_pos, meanOf, rne64]
  simp [(Int.natCast_nonneg n).not_gt]

/-- Settles O30: the sum and the count have at most 53 bits, so the one rounding is that of the quotient. -/
theorem meanIsTheQuotientRoundedOnce : Obligations.MeanIsTheQuotientRoundedOnce := by
  intro sum n hn hn' hsum
  obtain ⟨lo, hi⟩ := abs_le.mp hsum
  have sumBits : sum.natAbs < 2 ^ 53 := by omega
  have countBits : (n : Int).natAbs < 2 ^ 53 := by omega
  refine ⟨isRounded_meanOf sum hn, fun zero => ?_, f64Value_meanOf_one sumBits,
    (f64Value_meanOf_one countBits).trans (Int.cast_natCast n), fdiv_meanOf_one hn sumBits countBits⟩
  rw [zero, meanOf_zero hn]

/-- Settles O31: a Sample has at most 53 bits. -/
theorem meanOfEqualSamplesIsExact : Obligations.MeanOfEqualSamplesIsExact := by
  intro v n hn _ lo hi
  have bits : v.natAbs < 2 ^ 53 := by omega
  exact ⟨(meanOf_mul_units hn bits).1, f64Value_meanOf_mul hn bits⟩

/-! ## The weight -/

theorem isNaN_or_isInf_or_isFinite (x : F64) : f64IsNaN x = true ∨ f64IsInf x = true ∨ f64IsFinite x = true := by
  by_cases exp : f64Exp x = 2047
  · by_cases frac : f64Frac x = 0 <;> simp [f64IsNaN, f64IsInf, exp, frac]
  · simp [f64IsFinite, exp]

/-- What lies within 2^970 is far below overflow. -/
theorem lt_overflow_of_le {q : ℚ} (hq : q ≤ 2 ^ 970) : q < 2 ^ 1024 - 2 ^ 970 := by
  have above : (2 : ℚ) ^ 971 < 2 ^ 1024 := pow_lt_pow_right₀ one_lt_two (by norm_num)
  exact hq.trans_lt (lt_sub_iff_add_lt.mpr (by rwa [← mul_two, ← pow_succ]))

/-- Rounding a value below overflow is finite, and at most doubles the magnitude: 0 is no nearer. -/
theorem IsRounded.isFinite {q : ℚ} {y : F64} (rounded : IsRounded q y) (small : |q| ≤ 2 ^ 970) :
    f64IsFinite y = true ∧ |f64Value y| ≤ 2 * |q| := by
  obtain ⟨-, nearest⟩ := rounded
  rw [if_pos (lt_overflow_of_le small)] at nearest
  obtain ⟨finite, nearest⟩ := nearest
  have zero : f64Value 0 = 0 := (f64IsZero_iff_value 0).mp (by decide)
  have near := (nearest 0 (by decide)).1
  rw [zero, zero_sub, abs_neg] at near
  refine ⟨finite, ?_⟩
  calc |f64Value y| = |(f64Value y - q) + q| := by rw [sub_add_cancel]
    _ ≤ |f64Value y - q| + |q| := abs_add_le _ _
    _ ≤ 2 * |q| := by linarith

/-- A difference of finite values below overflow is finite. -/
theorem fsub_isFinite {a b : F64} (ha : f64IsFinite a = true) (hb : f64IsFinite b = true)
    (small : |f64Value a - f64Value b| ≤ 2 ^ 970) : ∃ d, fsub a b = some d ∧ f64IsFinite d = true := by
  by_cases same : f64Value a = f64Value b
  · refine ⟨_, fsub_of_value_eq ha hb same, ?_⟩
    split <;> decide
  · obtain ⟨d, diff, rounded⟩ := fsub_of_value_ne ha hb same
    exact ⟨d, diff, (rounded.isFinite small).1⟩

/-- A finite value over a divisor that is no zero is a NaN for a NaN divisor only. -/
theorem fdiv_eq_none_iff {a b : F64} (ha : f64IsFinite a = true) (nonzero : f64IsZero b = false) :
    fdiv a b = none ↔ f64IsNaN b = true := by
  rcases isNaN_or_isInf_or_isFinite b with nan | inf | finite
  · simp [fdiv_of_isNaN (.inr nan), nan]
  · simp [fdiv_of_isFinite_isInf ha inf, f64IsNaN_of_isInf inf]
  · simp [fdiv_of_isFinite ha finite, nonzero, f64IsNaN_of_isFinite finite]

/-- Settles O34: the mean and its difference from OFFSET are finite, so only the divisor can make a NaN. -/
theorem weightIsNanOnlyForANanUnit : Obligations.WeightIsNanOnlyForANanUnit := by
  intro sum n offset refUnit hn _ hsum finOffset offsetBound nonzero
  have quotient : |(sum : ℚ) / n| ≤ 2 ^ 39 := by
    have sumBound : |(sum : ℚ)| ≤ 2 ^ 39 := by exact_mod_cast hsum
    rw [abs_div, Nat.abs_cast]
    exact (div_le_self (abs_nonneg _) (by exact_mod_cast hn)).trans sumBound
  have below {q : ℚ} (hq : q ≤ 2 ^ 41) : q ≤ 2 ^ 970 := hq.trans (pow_le_pow_right₀ one_le_two (by norm_num))
  obtain ⟨finMean, meanBound⟩ := (isRounded_meanOf sum hn).isFinite (below (by linarith))
  obtain ⟨d, diff, finDiff⟩ := fsub_isFinite finMean finOffset
    (below (by linarith [abs_sub (f64Value (meanOf sum n)) (f64Value offset)]))
  rw [weightOf_eq_bind, diff]
  exact fdiv_eq_none_iff finDiff nonzero

end Sys2Proof.Machine
end

section
/-!
The PowerController (43_power.md R111 to R114; O36, O37, O39): what its two commands do in READY, and that POWER_DOWN
alone holds the clock, since every other effect of a command is a list of closed pulses.
-/

namespace Sys2Proof.Machine

/-! ## POWER_DOWN and POWER_UP in READY -/

/-- In READY both commands run, in either power sub-state (44_lifecycle.md R119). -/
theorem dispatch_power {op : Opcode} {s : State} (hop : op = .powerDown ∨ op = .powerUp) (ready : s.regs.life = .ready)
    (rule : State → Result) : dispatch op s rule = rule s := by
  rcases hop with rfl | rfl <;> simp [dispatch_eq, refusal, ready]

/-- The two primitives of POWER_DOWN: the clock is high after the write, and the hold keeps it high. -/
theorem holdHigh_pinWrite_true (c : PinId) (time : HoldTime) (s : State) :
    holdHigh c time (pinWrite c true s) =
      { s with regs := { s.regs with clk := .driven true }, trace := s.trace ++ [.write c true, .hold c time] } := by
  simp [holdHigh, pinWrite, emit]

/-- Settles O36: the command runs its two primitives on CLOCK_PIN. -/
theorem powerDownHoldsTheClockHigh : Obligations.PowerDownHoldsTheClockHigh := by
  intro s c ready hc
  simp only [exec, execPowerDown, dispatch_power (.inl rfl) ready, withClockPin_some _ hc, holdHigh_pinWrite_true]
  exact complete_eq .ok _

/-- Settles O37: the command runs its clock-low write on CLOCK_PIN. -/
theorem powerUpDrivesTheClockLow : Obligations.PowerUpDrivesTheClockLow := by
  intro s c ready hc
  simp only [exec, execPowerUp, dispatch_power (.inr rfl) ready, withClockPin_some _ hc]
  exact complete_eq .ok _

/-! ## The hold -/

/-- Closed pulses contain no hold: `pulsesClosed` reads every event of a closed list, and rejects
a hold. -/
theorem hold_not_mem_of_pulsesClosed {es : List PortEvent} (h : pulsesClosed es = true) (pin : PinId)
    (time : HoldTime) : PortEvent.hold pin time ∉ es := by
  induction es using pulsesClosed.induct <;> simp_all [pulsesClosed]

/-- The events of completed READs. -/
theorem pulsesClosed_reads (d c : PinId) (p : Nat) (reads : List (Nat × (Nat → Level))) :
    pulsesClosed (reads.flatMap (readEvents d c p)) = true :=
  pulsesClosed_flatMap (pulsesClosed_readEvents d c p) reads

/-- POWER_DOWN writes the clock high and holds it; every other effect is a list of closed pulses. -/
theorem Effect.slept_or_pulsesClosed {i : Instr} {s : State} {st : Status} {regs : Regs} {port : Option Handle}
    {es : List PortEvent} (effect : Effect i s st regs port es) :
    (i = .powerDown ∧ ∃ c, es = [.write c true, .hold c .pdHold]) ∨ pulsesClosed es = true := by
  cases effect with
  | slept c hi => exact .inl ⟨hi, c, rfl⟩
  | tared | weighed => exact .inr (pulsesClosed_reads _ _ _ _)
  | timedOut _ _ k =>
    exact .inr ((pulsesClosed_append (pulsesClosed_reads _ _ _ _) _).trans (pulsesClosed_waitEvents _ k))
  | refused | openFail | inputFail | outputFail | configured | formatSet | formatInvalid | unitSet | unitInvalid
    | gainSet | gainInvalid | weightInvalid | woken | closed | closedUnused => exact .inr rfl

/-- A hold among the events of a command is that of POWER_DOWN. -/
theorem Effect.slept_of_hold {i : Instr} {s : State} {st : Status} {regs : Regs} {port : Option Handle}
    {es : List PortEvent} (effect : Effect i s st regs port es) {pin : PinId} {time : HoldTime}
    (hold : PortEvent.hold pin time ∈ es) : i = .powerDown ∧ es = [.write pin true, .hold pin time] := by
  rcases effect.slept_or_pulsesClosed with ⟨hi, c, rfl⟩ | closed
  · obtain ⟨rfl, rfl⟩ : pin = c ∧ time = .pdHold := by simpa using hold
    exact ⟨hi, rfl⟩
  · exact absurd hold (hold_not_mem_of_pulsesClosed closed pin time)

/-- The configured hold lasts at least T_SLEEP (00_scope.md R11). -/
theorem tSleep_le_tPdHold : Config.tSleep ≤ Config.tPdHold :=
  Nat.le_add_right _ _

/-- Settles O39: a step issues nothing, or the events of one command's effect. -/
theorem holdOnlyInsidePowerDown : Obligations.HoldOnlyInsidePowerDown := by
  refine ⟨fun s t c rest hc run => ?_, tSleep_le_tPdHold⟩
  rcases step_effect run with ⟨waits, -⟩ | ⟨c', rest', hc', ran⟩
  · rw [hc] at waits
    cases waits
  obtain ⟨rfl, rfl⟩ := List.cons.inj (hc.symm.trans hc')
  rcases ran with ⟨-, rfl⟩ | ⟨i, decoded, st, es, result, effect, trace, -⟩
  · exact ⟨[], (List.append_nil _).symm, fun _ _ hold => absurd hold List.not_mem_nil⟩
  · refine ⟨es, trace, fun pin time hold => ?_⟩
    obtain ⟨rfl, events⟩ := effect.slept_of_hold hold
    exact ⟨decoded, events⟩

end Sys2Proof.Machine
end

section
/-!
The session's lifecycle (44_lifecycle.md R119, R121 to R129; O12, O16, O17, O18, O41): what CONFIGURE and CLOSE do by the
port's answers and by LIFE, that CLOSED is terminal, that no step stops under the invariant, and the clock that each
effect of a command leaves.
-/

namespace Sys2Proof.Machine

/-! ## What DISPATCH answers -/

/-- A command that the table of R119 refuses, or completes itself, has its response and nothing else. -/
theorem exec_of_refusal {i : Instr} {s : State} {st : Status} (h : refusal i.opcode s.regs.life s.regs.pwr = some st) :
    exec i s = .next (respond st 0 s) := by
  obtain ⟨rule, run⟩ := exec_eq_dispatch i
  rw [run, dispatch_eq, h]

/-- In CLOSED the table answers every command. -/
theorem refusal_closed (op : Opcode) (pwr : Pwr) :
    refusal op .closed pwr = some (if op = .close then .ok else .useAfterClose) := by
  rw [refusal, apply_ite some]

theorem exec_of_closed {i : Instr} {s : State} (closed : s.regs.life = .closed) :
    exec i s = .next (respond (if i.opcode = .close then .ok else .useAfterClose) 0 s) :=
  exec_of_refusal (by rw [closed, refusal_closed])

/-- Settles O16: a wait and an ILLEGAL word touch nothing, and in CLOSED DISPATCH answers every command. -/
theorem closedIsTerminal : Obligations.ClosedIsTerminal := by
  intro s t closed run
  rcases step_cases run with ⟨-, rfl⟩ | ⟨c, rest, -, ⟨-, rfl⟩ | ⟨i, -, ran⟩⟩
  · exact ⟨rfl, rfl, rfl, rfl⟩
  · exact ⟨rfl, rfl, rfl, rfl⟩
  · rw [exec_of_closed (s := { s with commands := rest }) closed] at ran
    cases ran
    exact ⟨rfl, rfl, rfl, rfl⟩

/-! ## CLOSE -/

section close

variable {s : State}

theorem exec_close_ready {c : PinId} (ready : s.regs.life = .ready) (hc : s.regs.clockPin = some c) :
    exec .close s = .next (answered 0 0
      { s with
        regs := { s.regs with portOpen := false, pwr := .awake, life := .closed, clk := .undriven }
        port := none
        trace := s.trace ++ [.write c false, .closePort] }) := by
  simp [exec, execClose, dispatch_eq, refusal, ready, withClockPin_some _ hc, complete_eq, portClose, pinWrite, emit,
    Status.code]

theorem exec_close_uninit (uninit : s.regs.life = .uninit) :
    exec .close s = .next (answered 0 0 { s with regs := { s.regs with life := .closed } }) := by
  simp [exec, execClose, dispatch_eq, refusal, uninit, complete_eq, Status.code]

theorem exec_close_closed (closed : s.regs.life = .closed) : exec .close s = .next (answered 0 0 s) := by
  rw [exec_of_closed closed, respond_eq_answered]
  rfl

end close

/-- Settles O18: one equation of CLOSE for each value of LIFE. -/
theorem closeEndsTheSession : Obligations.CloseEndsTheSession :=
  fun _ => ⟨fun _ => exec_close_ready, exec_close_uninit, exec_close_closed⟩

/-! ## CONFIGURE -/

/-- In UNINIT CONFIGURE runs. -/
theorem exec_configure_uninit {chip : ChipId} {clk dat : PinId} {s : State} (uninit : s.regs.life = .uninit) :
    exec (.configure chip clk dat) s = .next (configureSession chip clk dat s) := by
  simp [exec, execConfigure, dispatch_eq, refusal, uninit]

/-- Unwinding returns a state that held nothing to itself, but for the trace and the inputs (44_lifecycle.md R123). -/
theorem unwound_eq {s : State} (clk : s.regs.clk = .undriven) (port : s.port = none) (es : List PortEvent)
    (claims : Nat) :
    unwound s es claims =
      { s with
        trace := s.trace ++ es
        env := { s.env with opens := s.env.opens.drop 1, claims := s.env.claims.drop claims } } := by
  rw [unwound, ← clk, ← port]

/-- Settles O17: one closed form of CONFIGURE for each row of answers, read in a state that holds nothing. -/
theorem configureOpensASessionOrNothing : Obligations.ConfigureOpensASessionOrNothing := by
  intro s chip clk dat inv uninit
  have idle : s.regs.life ≠ .ready := by simp [uninit]
  have undriven := inv.clk_undriven idle
  have unheld := inv.no_session idle
  rw [exec_configure_uninit uninit]
  refine ⟨fun h0 => ?_, fun h0 h1 => ?_, fun h0 h1 same => ?_, fun h0 h1 ne h2 => ?_, fun h0 h1 ne h2 => ?_⟩
  · rw [configureSession_openFail h0, respond_eq_answered, ← unheld]
    rfl
  · rw [configureSession_inputFail h0 h1, unwound_eq undriven unheld, respond_eq_answered]
    rfl
  · rw [same, configureSession_samePin h0 h1, unwound_eq undriven unheld, respond_eq_answered]
    rfl
  · rw [configureSession_outputFail ne h0 h1 h2, unwound_eq undriven unheld, respond_eq_answered]
    rfl
  · rw [configureSession_ok ne h0 h1 h2, respond_eq_answered]
    rfl

/-! ## No stop -/

/-- In UNINIT CONFIGURE and CLOSE run, and every other command is refused. -/
theorem exec_answers_uninit {s : State} (uninit : s.regs.life = .uninit) (i : Instr) : ∃ t, exec i s = .next t := by
  cases i with
  | configure => exact ⟨_, exec_configure_uninit uninit⟩
  | close => exact ⟨_, exec_close_uninit uninit⟩
  | _ => exact ⟨_, exec_of_refusal (st := .invalidState) (by rw [uninit]; rfl)⟩

/-- In READY the invariant gives the pins that a command may read. -/
theorem State.Inv.exec_answers_ready {s : State} (inv : s.Inv) (ready : s.regs.life = .ready) (i : Instr) :
    ∃ t, exec i s = .next t := by
  obtain ⟨d, c, chip, -, hd, hc, -, -⟩ := inv.session ready
  cases i with
  | configure => exact ⟨_, exec_of_refusal (st := .invalidState) (by rw [ready]; rfl)⟩
  | setReadingFormat bito byteo =>
    cases hbyte : orderOfCode byteo with
    | none => exact ⟨_, exec_setReadingFormat_none ready (.inl hbyte)⟩
    | some byte =>
      cases hbit : orderOfCode bito with
      | none => exact ⟨_, exec_setReadingFormat_none ready (.inr hbit)⟩
      | some bit => exact ⟨_, exec_setReadingFormat_some ready hbyte hbit⟩
  | setReferenceUnit u =>
    by_cases zero : f64IsZero u = true
    · exact ⟨_, exec_setReferenceUnit_zero ready zero⟩
    · exact ⟨_, exec_setReferenceUnit_nonzero ready zero⟩
  | setGainChannel gc =>
    cases named : gainOfCode gc with
    | none => exact ⟨_, exec_setGainChannel_none ready named⟩
    | some g => exact ⟨_, exec_setGainChannel_some ready named⟩
  | tare =>
    cases pwr : s.regs.pwr with
    | asleep => exact ⟨_, exec_of_refusal (st := .invalidState) (by rw [ready, pwr]; rfl)⟩
    | awake => exact ⟨_, (exec_tare_eq_runReads ready pwr).trans (runReads_pins hd hc)⟩
  | getWeight =>
    cases pwr : s.regs.pwr with
    | asleep => exact ⟨_, exec_of_refusal (st := .invalidState) (by rw [ready, pwr]; rfl)⟩
    | awake => exact ⟨_, (exec_getWeight_eq_runReads ready pwr inv.refUnit_nonzero).trans (runReads_pins hd hc)⟩
  | powerDown => exact ⟨_, powerDownHoldsTheClockHigh s c ready hc⟩
  | powerUp => exact ⟨_, powerUpDrivesTheClockLow s c ready hc⟩
  | close => exact ⟨_, exec_close_ready ready hc⟩

/-- Under the invariant every command answers a next state, by the rows of R119's table. -/
theorem State.Inv.exec_answers {s : State} (inv : s.Inv) (i : Instr) : ∃ t, exec i s = .next t := by
  cases life : s.regs.life with
  | uninit => exact exec_answers_uninit life i
  | ready => exact inv.exec_answers_ready life i
  | closed => exact ⟨_, exec_of_closed life⟩

/-- Settles O12: a wait, an ILLEGAL word and, under the invariant, every command answer a next state. -/
theorem stepNeverStopsUnderTheInvariant : Obligations.StepNeverStopsUnderTheInvariant := by
  intro s inv
  cases hc : s.commands with
  | nil => exact ⟨_, step_of_no_command hc⟩
  | cons c rest =>
    cases hd : decode c with
    | none => exact ⟨_, step_of_decode_none hc hd⟩
    | some i =>
      rw [step_of_decode_some hc hd]
      exact (inv.of_eq rfl rfl : State.Inv { s with commands := rest }).exec_answers i

/-! ## The clock after a command -/

/-- The clock after a command: as it was, or low, or left so by a command that succeeds, and high by POWER_DOWN alone
(44_lifecycle.md R128). -/
theorem Effect.clk_cases {i : Instr} {s : State} {st : Status} {regs : Regs} {port : Option Handle}
    {es : List PortEvent} (effect : Effect i s st regs port es) (inv : s.Inv) :
    regs.clk = s.regs.clk ∨ regs.clk = .driven false ∨ st = .ok ∧ (regs.clk = .driven true → i = .powerDown) := by
  cases effect with
  | refused | openFail | formatSet | formatInvalid | unitSet | unitInvalid | gainSet | gainInvalid | weightInvalid
    | closedUnused => exact .inl rfl
  | inputFail _ _ _ _ uninit | outputFail _ _ _ _ uninit =>
    exact .inl (inv.clk_undriven (by simp [uninit])).symm
  | timedOut _ _ _ reads _ ready awake => exact .inl (inv.clockAfter_eq ready awake reads)
  | configured | tared | weighed | woken => exact .inr (.inl rfl)
  | slept _ hi => exact .inr (.inr ⟨rfl, fun _ => hi⟩)
  | closed => exact .inr (.inr ⟨rfl, fun high => nomatch high⟩)

/-- Settles O41: an ILLEGAL word leaves the clock, and a command leaves it as one of its effects does. -/
theorem failedCommandsLeaveTheClockLow : Obligations.FailedCommandsLeaveTheClockLow := by
  intro s t c rest r inv hc run sent
  cases hd : decode c with
  | none =>
    rw [step_of_decode_none hc hd] at run
    cases run
    exact ⟨fun _ => .inl rfl, fun high other => absurd high other⟩
  | some i =>
    rw [step_of_decode_some hc hd] at run
    obtain ⟨st, es, result, effect, -, -, responses⟩ := exec_effect run
    obtain rfl : r = _ := List.singleton_inj.mp (List.append_cancel_left (sent.symm.trans responses))
    rw [status_of_respWord]
    rcases effect.clk_cases (inv.of_eq rfl rfl) with kept | low | ⟨rfl, high⟩
    · exact ⟨fun _ => .inl kept, fun high other => absurd (kept.symm.trans high) other⟩
    · exact ⟨fun _ => .inr low, fun high => nomatch low.symm.trans high⟩
    · exact ⟨fun failed => absurd rfl failed, fun clk _ => ⟨congrArg some (high clk), rfl⟩⟩

end Sys2Proof.Machine
end

section
/-!
The statuses (60_exceptions.md R130 to R153; O11, O14, O15, O38): the one response of a command, the refusals of R119's
table, a status of steps 1 to 4 of R140 as a response and nothing else, and what each command does to PWR.
-/

namespace Sys2Proof.Machine

/-! ## The one response -/

section presented

variable {s t : State} {c : Command} {rest : List Command}

/-- What a step on a presented command has done: answered an ILLEGAL word, or run the decoded command. -/
theorem step_presented_cases (hc : s.commands = c :: rest) (run : step s = .next t) :
    (decode c = none ∧ t = respond .illegalCommand 0 { s with commands := rest }) ∨
      ∃ i, decode c = some i ∧ exec i { s with commands := rest } = .next t := by
  rcases step_cases run with ⟨waits, -⟩ | ⟨c', rest', hc', ran⟩
  · exact nomatch hc.symm.trans waits
  · obtain ⟨rfl, rfl⟩ := List.cons.inj (hc.symm.trans hc')
    exact ran

/-- A step on a presented command ends with one response, whose RESULT is 0 unless it is GET_WEIGHT's with STATUS OK. -/
theorem step_responds (hc : s.commands = c :: rest) (run : step s = .next t) :
    ∃ st result u, t = respond st result u ∧ u.commands = rest ∧ u.responses = s.responses ∧
      (result ≠ 0 → st = .ok ∧ ∃ nm1, decode c = some (.getWeight nm1)) := by
  rcases step_presented_cases hc run with ⟨-, rfl⟩ | ⟨i, hd, ran⟩
  · exact ⟨_, _, _, rfl, rfl, rfl, fun nonzero => absurd rfl nonzero⟩
  · obtain ⟨st, result, u, answer, commands, responses, weight⟩ := exec_responds ran
    refine ⟨st, result, u, answer, commands, responses, fun nonzero => ?_⟩
    obtain ⟨ok, nm1, rfl⟩ := weight nonzero
    exact ⟨ok, nm1, hd⟩

end presented

/-- Settles O11: the fields of the one response are those of the response word. -/
theorem everyCommandSendsOneResponse : Obligations.EveryCommandSendsOneResponse := by
  intro s t c rest hc run
  obtain ⟨st, result, u, rfl, commands, responses, weight⟩ := step_responds hc run
  refine ⟨commands, _, congrArg (· ++ _) responses, ?_, respWord_life _ _ _, respWord_pwr _ _ _, respWord_zero _ _ _,
    fun nonzero => ?_⟩
  · rw [status_of_respWord]
    exact status_code_le st
  · obtain ⟨rfl, getWeight⟩ := weight nonzero
    exact ⟨status_of_respWord _ _ _ _, getWeight⟩

/-! ## The refusals of the table -/

theorem opcode_eq_close_iff {i : Instr} : i.opcode = .close ↔ i = .close := by
  cases i <;> simp [Instr.opcode]

/-- A command that the table refuses with InvalidState. -/
theorem exec_of_invalidState {i : Instr} {s : State}
    (h : refusal i.opcode s.regs.life s.regs.pwr = some .invalidState) : exec i s = .next (answered 7 0 s) :=
  (exec_of_refusal h).trans (congrArg _ (respond_eq_answered .invalidState 0 s))

/-- Settles O14: in each of these entries DISPATCH answers by the table. -/
theorem lifecycleTableRefuses : Obligations.LifecycleTableRefuses := by
  refine fun i s => ⟨fun closed close => ?_, fun closed other => ?_, fun uninit configure close => ?_,
    fun ready configure => ?_, fun ready asleep reads => ?_⟩
  · rw [close, exec_close_closed closed]
  · rw [exec_of_closed closed, if_neg (opcode_eq_close_iff.not.mpr other), respond_eq_answered]
    rfl
  · have close : i.opcode ≠ .close := opcode_eq_close_iff.not.mpr close
    exact exec_of_invalidState (by rw [uninit, refusal, if_neg (not_or.mpr ⟨configure, close⟩)])
  · exact exec_of_invalidState (by rw [ready, configure]; rfl)
  · refine exec_of_invalidState ?_
    rw [ready, asleep]
    rcases reads with tare | getWeight
    · rw [tare]; rfl
    · rw [getWeight]; rfl

/-! ## A status of steps 1 to 4 -/

/-- A command has sent its response and done nothing else, or has ended with a status below InvalidFormat. -/
theorem exec_onlyResponds_or_status_lt_four {i : Instr} {s t : State} (h : exec i s = .next t) :
    (∃ st, t = respond st 0 s) ∨ ∃ st result u, t = respond st result u ∧ st.code.toNat < 4 := by
  have refused {op : Opcode} (h : Refused op s t) : ∃ st, t = respond st 0 s := h.imp fun _ => And.right
  cases i with
  | configure =>
    rcases execConfigure_cases h with ref | ⟨-, rfl | ⟨_, rfl⟩ | ⟨_, rfl⟩ | ⟨-, rfl⟩⟩
    · exact .inl (refused ref)
    all_goals exact .inr ⟨_, _, _, rfl, by decide⟩
  | setReadingFormat =>
    rcases execSetReadingFormat_cases h with ref | ⟨-, _, _, -, -, rfl⟩ | ⟨-, -, invalid⟩
    · exact .inl (refused ref)
    · exact .inr ⟨_, _, _, rfl, by decide⟩
    · exact .inl ⟨_, invalid⟩
  | setReferenceUnit =>
    rcases execSetReferenceUnit_cases h with ref | ⟨-, -, rfl⟩ | ⟨-, -, invalid⟩
    · exact .inl (refused ref)
    · exact .inr ⟨_, _, _, rfl, by decide⟩
    · exact .inl ⟨_, invalid⟩
  | tare =>
    rcases execTare_cases h with ref | ⟨-, -, _, _, -, ⟨-, _, _, -, rfl⟩ | ⟨_, -, rfl, -⟩⟩
    · exact .inl (refused ref)
    all_goals exact .inr ⟨_, _, _, rfl, by decide⟩
  | getWeight =>
    rcases execGetWeight_cases h with
      ref | ⟨-, -, ⟨-, invalid⟩ | ⟨-, _, _, -, ⟨-, _, _, -, rfl⟩ | ⟨_, -, rfl, -⟩⟩⟩
    · exact .inl (refused ref)
    · exact .inl ⟨_, invalid⟩
    · unfold respondWeight
      split <;> exact .inr ⟨_, _, _, rfl, by decide⟩
    · exact .inr ⟨_, _, _, rfl, by decide⟩
  | powerDown =>
    rcases execPowerDown_cases h with ref | ⟨-, _, -, rfl⟩
    · exact .inl (refused ref)
    · exact .inr ⟨_, _, _, rfl, by decide⟩
  | powerUp =>
    rcases execPowerUp_cases h with ref | ⟨-, _, -, rfl⟩
    · exact .inl (refused ref)
    · exact .inr ⟨_, _, _, rfl, by decide⟩
  | close =>
    rcases execClose_cases h with ref | ⟨-, _, -, rfl⟩ | ⟨-, rfl⟩
    · exact .inl (refused ref)
    all_goals exact .inr ⟨_, _, _, rfl, by decide⟩
  | setGainChannel =>
    rcases execSetGainChannel_cases h with ref | ⟨-, _, -, rfl⟩ | ⟨-, -, invalid⟩
    · exact .inl (refused ref)
    · exact .inr ⟨_, _, _, rfl, by decide⟩
    · exact .inl ⟨_, invalid⟩

/-- A step on a presented command, likewise: an ILLEGAL word has its response and nothing else. -/
theorem step_onlyResponds_or_status_lt_four {s t : State} {c : Command} {rest : List Command}
    (hc : s.commands = c :: rest) (run : step s = .next t) :
    (∃ st, t = respond st 0 { s with commands := rest }) ∨
      ∃ st result u, t = respond st result u ∧ st.code.toNat < 4 := by
  rcases step_presented_cases hc run with ⟨-, illegal⟩ | ⟨i, -, ran⟩
  · exact .inl ⟨_, illegal⟩
  · exact exec_onlyResponds_or_status_lt_four ran

/-- Settles O15: a status of 4 or more is not below InvalidFormat, so the response is all the step has done. -/
theorem refusedCommandsTouchNothing : Obligations.RefusedCommandsTouchNothing := by
  intro s t c rest r hc run sent high
  rcases step_onlyResponds_or_status_lt_four hc run with ⟨st, rfl⟩ | ⟨st, result, u, rfl, low⟩
  · rw [← sent]
    rfl
  · obtain ⟨-, last⟩ := List.append_inj' sent rfl
    rw [← List.singleton_inj.mp last, status_of_respWord] at high
    omega

/-! ## PWR -/

/-- A command leaves PWR as it was, or is POWER_DOWN and puts it to ASLEEP, or is POWER_UP or CLOSE, puts it to AWAKE
and drives the clock low first (43_power.md R113, R114; 60_exceptions.md R153). CONFIGURE writes PWR in UNINIT only,
where the invariant has AWAKE. -/
theorem Effect.pwr_cases {i : Instr} {s : State} {st : Status} {regs : Regs} {port : Option Handle}
    {es : List PortEvent} (effect : Effect i s st regs port es) (inv : s.Inv) :
    regs.pwr = s.regs.pwr ∨ regs.pwr = .asleep ∧ i = .powerDown ∨
      regs.pwr = .awake ∧ (i = .powerUp ∨ i = .close) ∧ ∃ pin es', es = .write pin false :: es' := by
  cases effect with
  | configured _ _ _ _ uninit => exact .inl (inv.pwr_awake (by simp [uninit])).symm
  | slept _ hi => exact .inr (.inl ⟨rfl, hi⟩)
  | woken _ hi => exact .inr (.inr ⟨rfl, .inl hi, _, _, rfl⟩)
  | closed _ hi => exact .inr (.inr ⟨rfl, .inr hi, _, _, rfl⟩)
  | refused | openFail | inputFail | outputFail | formatSet | formatInvalid | unitSet | unitInvalid | gainSet
    | gainInvalid | tared | weighed | timedOut | weightInvalid | closedUnused => exact .inl rfl

/-- Settles O38: an ILLEGAL word leaves PWR, and a command changes it as one of its effects does. -/
theorem onlyPowerCommandsChangePwr : Obligations.OnlyPowerCommandsChangePwr := by
  intro s t c rest inv hc run
  rcases step_presented_cases hc run with ⟨-, rfl⟩ | ⟨i, hd, ran⟩
  · exact ⟨fun awake asleep => absurd (awake.symm.trans asleep) (by decide),
      fun asleep awake => absurd (asleep.symm.trans awake) (by decide)⟩
  · obtain ⟨st, es, result, effect, trace, -⟩ := exec_effect ran
    rcases effect.pwr_cases (inv.of_eq rfl rfl) with kept | ⟨pwr, rfl⟩ | ⟨pwr, hi, pin, es', rfl⟩
    · exact ⟨fun awake asleep => absurd ((kept.trans awake).symm.trans asleep) (by decide),
        fun asleep awake => absurd ((kept.trans asleep).symm.trans awake) (by decide)⟩
    · exact ⟨fun _ _ => hd, fun _ awake => absurd (pwr.symm.trans awake) (by decide)⟩
    · refine ⟨fun _ asleep => absurd (pwr.symm.trans asleep) (by decide), fun _ _ => ⟨?_, pin, es', trace⟩⟩
      exact hi.imp (hd.trans <| congrArg some ·) (hd.trans <| congrArg some ·)

end Sys2Proof.Machine
end

section
/-!
The reset calibration (70_reset_and_hazards.md R155, R156, R159; O1, O35): the reset values of the registers, and the
weight of a finite mean with the reset OFFSET and REF_UNIT. A finite pattern is its sign and the rounding of its own
magnitude, so subtracting +0.0 and dividing by 1.0 give it back bit for bit.
-/

namespace Sys2Proof.Machine

/-- A pattern is its sign bit and the 63 bits below it. -/
theorem f64Pack_sign_magnitude (x : F64) : f64Pack (f64Sign x) (x.toNat % 2 ^ 63) = x := by
  apply BitVec.eq_of_toNat_eq
  rw [toNat_f64Pack _ _ (Nat.mod_lt _ (by norm_num)), f64Sign_eq]
  simp only [decide_eq_true_eq]
  have := x.isLt
  split <;> omega

theorem f64Sign_one : f64Sign 0x3FF0000000000000 = false := by decide

/-- 1.0 is 2^1074 units. -/
theorem f64Units_one : f64Units 0x3FF0000000000000 = unitsPerOne := by
  have exp : f64Exp 0x3FF0000000000000 = 1023 := by decide
  have frac : f64Frac 0x3FF0000000000000 = 0 := by decide
  unfold unitsPerOne
  simp only [f64Units, exp, frac, OfNat.ofNat_ne_zero, if_false, Nat.add_zero, ← pow_add]

theorem natAbs_f64Int (x : F64) : (f64Int x).natAbs = f64Units x := by
  exact_mod_cast (Int.natCast_natAbs (f64Int x)).trans (abs_f64Int x)

/-- Away from zero the sign bit is the sign of the units. -/
theorem decide_f64Int_neg {x : F64} (nonzero : f64IsZero x = false) : decide (f64Int x < 0) = f64Sign x := by
  have units := f64Units_pos nonzero
  unfold f64Int
  cases f64Sign x <;> simp [units]

section calibration

variable {x : F64} (finite : f64IsFinite x = true)

include finite

/-- The exact units of a finite pattern, over any denominator, round to the pattern itself. -/
theorem f64Pack_roundMagnitude_units {den : Nat} (hd : 0 < den) :
    f64Pack (f64Sign x) (roundMagnitude (f64Units x * den) den) = x := by
  have magnitude : roundMagnitude (f64Units x * den) den = x.toNat % 2 ^ 63 :=
    roundMagnitude_exact _ _ _ hd ((f64IsFinite_iff x).mp finite) (by rw [f64Units_eq, Nat.mul_comm])
  rw [magnitude, f64Pack_sign_magnitude]

/-- x - (+0.0) is x, and -0.0 stays -0.0. -/
theorem fsub_zero : fsub x 0x0000000000000000 = some x := by
  have zeroInt : f64Int 0x0000000000000000 = 0 := by decide
  rw [fsub_of_isFinite finite (by decide), zeroInt, sub_zero]
  cases zero : f64IsZero x with
  | true => rcases (f64IsZero_iff_pattern x).mp zero with rfl | rfl <;> decide
  | false =>
    have nonzero : f64Int x ≠ 0 := by
      rw [← Int.natAbs_ne_zero, natAbs_f64Int]
      exact (f64Units_pos zero).ne'
    have rounded := f64Pack_roundMagnitude_units finite one_pos
    rw [Nat.mul_one] at rounded
    rw [if_neg nonzero, decide_f64Int_neg zero, natAbs_f64Int, rounded]

/-- x / 1.0 is x. -/
theorem fdiv_one : fdiv x 0x3FF0000000000000 = some x := by
  rw [fdiv_of_isFinite finite (by decide), if_neg (by decide), f64Units_one, f64Sign_one, Bool.xor_false,
    f64Pack_roundMagnitude_units finite unitsPerOne_pos]

end calibration

/-- Settles O35: the mean less the reset OFFSET, +0.0, over the reset REF_UNIT, 1.0. -/
theorem resetCalibrationReturnsTheMean : Obligations.ResetCalibrationReturnsTheMean := by
  intro m finite
  rw [weightOf_eq_bind, Regs.reset, fsub_zero finite]
  exact fdiv_one finite

/-- Settles O1: `State.reset` has the values of 10_state.md R20's table. -/
theorem resetLeavesTheTableValues : Obligations.ResetLeavesTheTableValues :=
  ⟨rfl, rfl, rfl, rfl, rfl, rfl, rfl, rfl, rfl, rfl, rfl, rfl, rfl, rfl⟩

end Sys2Proof.Machine
end
